-- ==== Sys2Proof/Word.lean ====
section
/-! DEFINITION. The words and records that travel on the block's ports (spec/10_state.md R22, R25 to R27).
Types only: every function on them stands in Decode.lean or under Machine/. -/

namespace Sys2Proof

/-- The command word `CMD`, 32 bits (R25, R63). -/
abbrev Cmd := BitVec 32

/-- The number of bits of the container that holds a value port.
A value port has `W = 1 + M_MAX + E_MAX` bits (R5); `M_MAX` and `E_MAX` are OPEN, bounded by the tag widths
(R64: `M_MAX <= 65535`, `E_MAX <= 255`), so this many bits hold a port of every admissible width.
Log entry 1. -/
def portBits : Nat := 1 + 65535 + 255

/-- The contents of a `W`-bit value port (`A.bits`, `B.bits`, `R_BITS`), in a container wide enough for every
admissible `W`. Bits at and above `W` do not exist in the block: the model's invariant says that they are 0. -/
abbrev PortWord := BitVec portBits

/-- A format `(m, e)`: a pair of natural numbers, mantissa width first (R22). -/
structure Format where
  m : Nat
  e : Nat
deriving DecidableEq, Repr

/-- One operand port: the format tag and the value bits beside it (R25). -/
structure Operand where
  /-- `A.m` or `B.m`, 16 bits. -/
  m : BitVec 16
  /-- `A.e` or `B.e`, 8 bits. -/
  e : BitVec 8
  /-- `A.bits` or `B.bits`, `W` bits. -/
  bits : PortWord
deriving DecidableEq, Repr

/-- What the block samples at an accepted START: the command word, both operands and the binary64 word (R25, R26). -/
structure Request where
  /-- `CMD`. -/
  cmd : Cmd
  /-- Operand A. -/
  a : Operand
  /-- Operand B. -/
  b : Operand
  /-- `F64_IN`. -/
  f64 : BitVec 64
deriving DecidableEq, Repr

/-- The response registers, which every completion writes together (R27, R44, R176). -/
structure Response where
  /-- `R_ERR`: the error code (R171). -/
  rErr : BitVec 2
  /-- `R_M`: mantissa width of the value result, or 0. -/
  rM : BitVec 16
  /-- `R_E`: exponent width of the value result, or 0. -/
  rE : BitVec 8
  /-- `R_BITS`: bits of the value result, or 0. -/
  rBits : PortWord
  /-- `R_WORD`: the non-value result, or 0. -/
  rWord : BitVec 64
deriving DecidableEq, Repr

/-- A draw `d_nan` before it is given a format (R133): a sign and a number that selects the mantissa. -/
structure NanDraw where
  sign : Bool
  payload : Nat
deriving DecidableEq, Repr

end Sys2Proof
end

