-- ==== Sys2Proof/Syntax.lean ====
section
/-! DEFINITION. The instructions: one constructor per row of spec/opcode_table.json (spec/30_encoding.md R66).
An instruction carries the command word's operand fields that its operation reads; a field that it does not read is
ignored (R68) and is no part of it. Operands on ports (A, B, F64_IN) are read from the latched request. -/

namespace Sys2Proof

/-- An operation of the block. -/
inductive Instr where
  /-- `FADD a, b` (R131). -/
  | fadd
  /-- `FSUB a, b` (R132). -/
  | fsub
  /-- `FMUL a, b` (R141). -/
  | fmul
  /-- `FDIV a, b` (R142). -/
  | fdiv
  /-- `FEQ a, b` (R152). -/
  | feq
  /-- `FNE a, b` (R153). -/
  | fne
  /-- `FLT a, b` (R154). -/
  | flt
  /-- `FLE a, b` (R155). -/
  | fle
  /-- `FGT a, b` (R156). -/
  | fgt
  /-- `FGE a, b` (R157). -/
  | fge
  /-- `FCAST a, (tm, te)` (R161). -/
  | fcast (t : Format)
  /-- `FCVT.X.F64 w64, (tm, te)` (R111). -/
  | fcvtXF64 (t : Format)
  /-- `FCVT.F64.X a` (R162). -/
  | fcvtF64X
  /-- `FCLASS a` (R112). -/
  | fclass
  /-- `FSETZERO (tm, te)` (R113). -/
  | fsetzero (t : Format)
  /-- `FSETINF (tm, te), sg` (R115). -/
  | fsetinf (t : Format) (sg : Bool)
  /-- `FSETNAN (tm, te)` (R114). -/
  | fsetnan (t : Format)
deriving DecidableEq, Repr

end Sys2Proof
end

