-- ==== Sys2Proof/WellFormed.lean ====
section
/-! DEFINITION. Which instructions a command word can hold: a target format must fit the fields `tm` (16 bits) and
`te` (8 bits) (spec/30_encoding.md R63, R64). Whether the format is VALID (R23) is no matter of form: "The width of
the field does not stop it from being written" (R64), and the operation reports it (R175). -/

namespace Sys2Proof

/-- The mantissa width fits `CMD[23:8]` and the exponent width fits `CMD[31:24]` (R63, R64). -/
def Format.fitsFields (t : Format) : Bool := decide (t.m < 2 ^ 16) && decide (t.e < 2 ^ 8)

/-- The instruction has a command word (R63). -/
def Instr.wellFormed : Instr → Bool
  | .fadd | .fsub | .fmul | .fdiv => true
  | .feq | .fne | .flt | .fle | .fgt | .fge => true
  | .fcvtF64X | .fclass => true
  | .fcast t | .fcvtXF64 t | .fsetzero t | .fsetnan t => t.fitsFields
  | .fsetinf t _ => t.fitsFields

end Sys2Proof
end

