-- ==== Sys2Proof/Decode.lean ====
section
/-! DEFINITION. The decoder, total on every 32-bit command word and rejecting by name (spec/30_encoding.md R63 to R69),
and after it the encoder, written from the same layout. The command word is a port word: it has no byte order (R42),
so the table's bit numbers are the port's bit numbers. -/

namespace Sys2Proof

/-- Why a command word selects no operation (R67). -/
inductive Illegal where
  /-- `opc` is one of the reserved values of R66. -/
  | reservedOpcode (opc : BitVec 5)
  /-- The field `rsv` is not `00`. -/
  | reservedField (rsv : BitVec 2)
deriving DecidableEq, Repr

/-- `CMD[4:0]`, the operation (R63). -/
def opcOf (w : Cmd) : BitVec 5 := w.extractLsb' 0 5

/-- `CMD[5]`, the sign operand of FSETINF (R63). -/
def sgOf (w : Cmd) : Bool := w.getLsbD 5

/-- `CMD[7:6]`, reserved (R63). -/
def rsvOf (w : Cmd) : BitVec 2 := w.extractLsb' 6 2

/-- The target format `(zext(CMD[23:8]), zext(CMD[31:24]))` (R63, R64). -/
def targetOf (w : Cmd) : Format := ⟨(w.extractLsb' 8 16).toNat, (w.extractLsb' 24 8).toNat⟩

/-- The row of R66 that `opc` selects, with the operand fields the operation reads. -/
def decodeOpc (opc : BitVec 5) (sg : Bool) (t : Format) : Except Illegal Instr :=
  match opc.toNat with
  | 0x01 => .ok .fadd
  | 0x02 => .ok .fsub
  | 0x03 => .ok .fmul
  | 0x04 => .ok .fdiv
  | 0x08 => .ok .feq
  | 0x09 => .ok .fne
  | 0x0A => .ok .flt
  | 0x0B => .ok .fle
  | 0x0C => .ok .fgt
  | 0x0D => .ok .fge
  | 0x10 => .ok (.fcast t)
  | 0x11 => .ok (.fcvtXF64 t)
  | 0x12 => .ok .fcvtF64X
  | 0x18 => .ok .fclass
  | 0x19 => .ok (.fsetzero t)
  | 0x1A => .ok (.fsetinf t sg)
  | 0x1B => .ok (.fsetnan t)
  | _ => .error (.reservedOpcode opc)

/-- Decoding: every command word selects exactly one row of R66 or is illegal by R67 (R69). -/
def decode (w : Cmd) : Except Illegal Instr :=
  if rsvOf w = 0#2 then decodeOpc (opcOf w) (sgOf w) (targetOf w) else .error (.reservedField (rsvOf w))

/-- The host's question: the instruction the decoder reads from a command of `nbits` bits that are `w`.
A command is 32 bits (R63); bits above `nbits` are 0, and a number that does not fit 32 bits is no command. -/
def decodeTableWord (nbits w : Nat) : Option Instr :=
  if w % 2 ^ nbits < 2 ^ 32 then
    match decode (BitVec.ofNat 32 (w % 2 ^ nbits)) with
    | .ok i => some i
    | .error _ => none
  else none

/-- The `opc` value of an instruction (R66). -/
def opcodeOf : Instr → BitVec 5
  | .fadd => 0x01#5
  | .fsub => 0x02#5
  | .fmul => 0x03#5
  | .fdiv => 0x04#5
  | .feq => 0x08#5
  | .fne => 0x09#5
  | .flt => 0x0A#5
  | .fle => 0x0B#5
  | .fgt => 0x0C#5
  | .fge => 0x0D#5
  | .fcast _ => 0x10#5
  | .fcvtXF64 _ => 0x11#5
  | .fcvtF64X => 0x12#5
  | .fclass => 0x18#5
  | .fsetzero _ => 0x19#5
  | .fsetinf _ _ => 0x1A#5
  | .fsetnan _ => 0x1B#5

/-- The command word with the given fields: from bit 31 down to bit 0, `te`, `tm`, `rsv = 00`, `sg`, `opc` (R63). -/
def cmdWord (opc : BitVec 5) (sg : Bool) (t : Format) : Cmd :=
  BitVec.ofNat 8 t.e ++ (BitVec.ofNat 16 t.m ++ (0#2 ++ (BitVec.ofBool sg ++ opc)))

/-- The command word of an instruction; a field the operation does not read is written 0 (R71). -/
def encode (i : Instr) : Cmd :=
  match i with
  | .fadd | .fsub | .fmul | .fdiv => cmdWord (opcodeOf i) false ⟨0, 0⟩
  | .feq | .fne | .flt | .fle | .fgt | .fge => cmdWord (opcodeOf i) false ⟨0, 0⟩
  | .fcvtF64X | .fclass => cmdWord (opcodeOf i) false ⟨0, 0⟩
  | .fcast t | .fcvtXF64 t | .fsetzero t | .fsetnan t => cmdWord (opcodeOf i) false t
  | .fsetinf t sg => cmdWord (opcodeOf i) sg t

/-- The alias `FNEW (m, e)`, another spelling of `FSETZERO (m, e)` (R70). -/
def fnew (t : Format) : Instr := .fsetzero t

/-- The alias `FFROM (m, e), w64`, another spelling of `FCVT.X.F64 w64, (m, e)` (R70). -/
def ffrom (t : Format) : Instr := .fcvtXF64 t

end Sys2Proof
end

