-- ==== Sys2Proof/Config.lean ====
section
/-! DEFINITION. What an implementation of the block fixes and the spec leaves OPEN (spec/00_scope.md R5), and the
free values. Each `opaque` below has no body: nothing in Lean can prove which value it has, so a statement proved
about the model holds for every admissible block. -/

namespace Sys2Proof

/-- How far `M_MAX` lies above its least admissible value 52: any of 0 to 65483 (R5, decision D2). Log entry 2. -/
opaque Config.mMaxAbove52 : Fin 65484

/-- How far `E_MAX` lies above its least admissible value 11: any of 0 to 244 (R5, decision D2). Log entry 2. -/
opaque Config.eMaxAbove11 : Fin 245

/-- `M_MAX`, the largest mantissa width the block accepts: `52 <= M_MAX <= 65535` (R5). -/
def Config.mMax : Nat := Config.mMaxAbove52.val + 52

/-- `E_MAX`, the largest exponent width the block accepts: `11 <= E_MAX <= 255` (R5). -/
def Config.eMax : Nat := Config.eMaxAbove11.val + 11

/-- `W = 1 + M_MAX + E_MAX`, the width of every value port (R5). -/
def Config.portWidth : Nat := 1 + Config.mMax + Config.eMax

/-- How many edges beyond the first a request takes: OPEN, any finite number, a function of the whole latched
request (R5, R191, R197, conflict C12). Log entry 3. -/
opaque Config.latencyBeyondFirst : Request → Nat

/-- `LAT(LQ)`: clock edges from an accepted START to DONE, finite and at least 1 (R5, R191, R192). -/
def Config.latency (q : Request) : Nat := Config.latencyBeyondFirst q + 1

/-- The sign of the `n`-th draw `d_nan` (R133). Free: log entry 4. -/
opaque Config.nanSign : Nat → Bool

/-- The number that selects the mantissa of the `n`-th draw `d_nan` (R133). Free: log entry 4. -/
opaque Config.nanPayload : Nat → Nat

end Sys2Proof
end

