-- ==== Sys2Proof/Machine/State.lean ====
section
/-! DEFINITION. The block's state (spec/10_state.md R26, R27, R32), its input pins as the host drives them
(R25), and the names of its errors, faults and refusals. -/

namespace Sys2Proof.Machine

/-- The error codes' names (spec/60_exceptions.md R171). An error is a response (R174), not a fault of the model. -/
inductive ErrorCode where
  | invalidPrecision
  | precisionMismatch
  | illegalOperation
deriving DecidableEq, Repr

/-- The machine's faults: there are none, so nobody raises one. The block has no trap mechanism (R180), every
accepted transaction completes (R192) and an illegal command is an ordinary response (R172, R174). -/
inductive Fault where
deriving DecidableEq, Repr

/-- Reasons why an instruction has no outcome in the model. -/
inductive Refusal where
  /-- The arm of `exec` for an instruction that has no meaning yet. Raised by no arm now. Safe: the run stops. -/
  | notModelled (mnemonic : String)
deriving DecidableEq, Repr

/-- The input pins the block samples at one rising edge of `CLK` (R25). -/
structure Pins where
  /-- `RST`, synchronous reset (R193). -/
  rst : Bool
  /-- `START`, request strobe (R190). -/
  start : Bool
  /-- `CMD`, `A`, `B` and `F64_IN`. -/
  req : Request
deriving DecidableEq, Repr

/-- The state before a rising edge of `CLK`. -/
structure State where
  /-- The input pins as the host drives them at the coming edge (R25). -/
  pins : Pins
  /-- What the host drives at the edges after it, first first; when it is used up the pins keep their levels.
  The model's own field: log entry 5. -/
  drive : List Pins
  /-- `LQ`, the latched request (R26). -/
  lq : Request
  /-- `R_ERR`, `R_M`, `R_E`, `R_BITS`, `R_WORD` (R27). -/
  resp : Response
  /-- `BUSY` (R27, R190). -/
  busy : Bool
  /-- `DONE` (R27, R191). -/
  done : Bool
  /-- Edges left until the transaction in progress completes (R191); 0 when none is. The model's own field: log entry 6. -/
  edgesLeft : Nat
  /-- How many draws `d_nan` have been made (R133, R191). The model's own field: log entry 4. -/
  draws : Nat
deriving DecidableEq, Repr

/-- An operand with every field 0 (R32). -/
def zeroOperand : Operand := ⟨0#16, 0#8, 0#portBits⟩

/-- A request with every field 0 (R32). -/
def zeroRequest : Request := ⟨0#32, zeroOperand, zeroOperand, 0#64⟩

/-- A response with every register 0 (R32). -/
def zeroResponse : Response := ⟨0#2, 0#16, 0#8, 0#portBits, 0#64⟩

/-- Pins at rest: no reset, no request, every port 0 (log entry 5). -/
def idlePins : Pins := ⟨false, false, zeroRequest⟩

/-- The state right after reset (R32, R193): registers and `LQ` are 0, `BUSY = DONE = 0`. The pins and the model's own
fields have the values of log entries 4 to 6. -/
def State.reset : State :=
  { pins := idlePins, drive := [], lq := zeroRequest, resp := zeroResponse,
    busy := false, done := false, edgesLeft := 0, draws := 0 }

end Sys2Proof.Machine
end

