-- ==== Sys2Proof/Machine/Value.lean ====
section
/-! DEFINITION. What the fields of a value mean: classes, magnitudes and the special-value constructors
(spec/40_representation.md R101 to R107; the part fp_special_value_logic). Arithmetic is exact, over `Nat`, `Int` and
the rationals (spec/00_scope.md R7). -/

namespace Sys2Proof.Machine

/-- A value's fields `(s, x, f)`: sign (true is negative), biased exponent field, mantissa field (R24, R60).
The widths are the format's, which travels beside the value (R25). -/
structure Value where
  s : Bool
  x : Nat
  f : Nat
deriving DecidableEq, Repr

/-- The fields fit their widths: `x` has `e` bits and `f` has `m` bits (R24). -/
def Value.inFormat (F : Format) (v : Value) : Bool := decide (v.x < 2 ^ F.e) && decide (v.f < 2 ^ F.m)

/-- The class of a value (R102). -/
inductive Class where
  | zero
  | normal
  | inf
  | nan
deriving DecidableEq, Repr

/-- `bias(e) = 2^(e-1) - 1` (R101). -/
def bias (e : Nat) : Nat := 2 ^ (e - 1) - 1

/-- The exponent field of all ones, `1^e` (R6). -/
def onesExp (e : Nat) : Nat := 2 ^ e - 1

/-- `XMAX(e) = 2^e - 2`, the largest biased exponent of a NORMAL value (R101). -/
def xMax (e : Nat) : Nat := 2 ^ e - 2

/-- `emax(e) = XMAX(e) - bias(e)`, the largest unbiased exponent (R101). -/
def emax (e : Nat) : Int := (xMax e : Int) - bias e

/-- `emin(e) = 1 - bias(e)`, the smallest unbiased exponent of a NORMAL value (R101). -/
def emin (e : Nat) : Int := 1 - (bias e : Int)

/-- The class of `(s, x, f)` in a format (R102). A pattern with `x = 0` is a zero whatever its mantissa. -/
def classOf (F : Format) (v : Value) : Class :=
  if v.x = 0 then .zero
  else if v.x = onesExp F.e ∧ v.f = 0 then .inf
  else if v.x = onesExp F.e ∧ v.f ≠ 0 then .nan
  else .normal

/-- The significand `1 ++ f` as an `(m+1)`-bit number, `2^m + f` (R103). -/
def significand (F : Format) (v : Value) : Nat := 2 ^ F.m + v.f

/-- The magnitude of a NORMAL value, `(2^m + f) * 2^(x - bias(e) - m)` (R103). -/
def mag (F : Format) (v : Value) : ℚ := (significand F v : ℚ) * (2 : ℚ) ^ ((v.x : Int) - bias F.e - F.m)

/-- `(-1)^s * q` (R103). -/
def signed (s : Bool) (q : ℚ) : ℚ := if s then -q else q

/-- The canonical NaN with sign `s`: only the top bit of the mantissa is set (R104). -/
def qNaN (F : Format) (s : Bool) : Value := ⟨s, onesExp F.e, 2 ^ (F.m - 1)⟩

/-- `Zero(m, e, s)` (R105). -/
def zeroV (_F : Format) (s : Bool) : Value := ⟨s, 0, 0⟩

/-- `Inf(m, e, s)` (R105). -/
def infV (F : Format) (s : Bool) : Value := ⟨s, onesExp F.e, 0⟩

/-- `NaNr(m, e)`, the NaN of an arithmetic result (R105). -/
def nanR (F : Format) : Value := qNaN F false

/-- The value with its sign bit inverted, for every class (R132). -/
def negate (v : Value) : Value := { v with s := !v.s }

/-- The draw `d_nan` in a format: any sign, exponent `1^e`, any nonzero mantissa (R133). The payload `p` selects the
mantissa `1 + p mod (2^m - 1)`, so every nonzero mantissa is selected by some payload (log entry 4). -/
def drawnNaN (F : Format) (d : NanDraw) : Value := ⟨d.sign, onesExp F.e, 1 + d.payload % (2 ^ F.m - 1)⟩

end Sys2Proof.Machine
end

