-- ==== Sys2Proof/Machine/Operands.lean ====
section
/-! DEFINITION. Reading operands and writing results: format validity (spec/10_state.md R23), the value on a port
(spec/30_encoding.md R61), the binary64 word (spec/40_representation.md R110) and the checks every operation makes
before it runs (spec/60_exceptions.md R170, R175, R177, R178). -/

namespace Sys2Proof.Machine

/-- A format is valid iff `1 <= m <= M_MAX` and `2 <= e <= E_MAX` (R23). -/
def formatValid (F : Format) : Bool :=
  decide (1 ≤ F.m) && decide (2 ≤ F.e) && decide (F.m ≤ Config.mMax) && decide (F.e ≤ Config.eMax)

/-- The format tag of an operand port (R25). -/
def tagOf (p : Operand) : Format := ⟨p.m.toNat, p.e.toNat⟩

/-- The value on a `W`-bit port, LSB-aligned: bit `m+e` is the sign, bits `m+e-1 .. m` the exponent field, bits
`m-1 .. 0` the mantissa field; higher bits are ignored (R61). -/
def unpack (F : Format) (b : PortWord) : Value :=
  ⟨b.getLsbD (F.m + F.e), (b.extractLsb' F.m F.e).toNat, (b.extractLsb' 0 F.m).toNat⟩

/-- The value of an operand port, `A.val` (R61). -/
def valueOf (p : Operand) : Value := unpack (tagOf p) p.bits

/-- `s ++ x ++ f` as a number (R41, R60). -/
def packNat (F : Format) (v : Value) : Nat := v.s.toNat * 2 ^ (F.m + F.e) + v.x * 2 ^ F.m + v.f

/-- `pack(v)`: the value LSB-aligned on a value port, higher bits 0 (R61). -/
def pack (F : Format) (v : Value) : PortWord := BitVec.ofNat portBits (packNat F v)

/-- The format of binary64 and binary32 words (R60). -/
def f64Format : Format := ⟨52, 11⟩

/-- A value of format (52, 11) as a 64-bit word in the binary64 layout (R42, R162). -/
def packWord64 (v : Value) : BitVec 64 := BitVec.ofNat 64 (packNat f64Format v)

/-- The fields of a binary64 word: bit 63, bits 62..52, bits 51..0 (R42, R110). -/
def f64Fields (w : BitVec 64) : Value :=
  ⟨w.getLsbD 63, (w.extractLsb' 52 11).toNat, (w.extractLsb' 0 52).toNat⟩

/-- The class of a binary64 word, where FINITE covers normal and subnormal words alike (R110). -/
inductive F64Class where
  | zero
  | finite
  | inf
  | nan
deriving DecidableEq, Repr

/-- `f64class(w)` (R110). -/
def f64ClassOf (w : BitVec 64) : F64Class :=
  let v := f64Fields w
  if v.x = 0x7FF ∧ v.f ≠ 0 then .nan
  else if v.x = 0x7FF ∧ v.f = 0 then .inf
  else if v.x = 0 ∧ v.f = 0 then .zero
  else .finite

/-- `f64mag(w)`: a word with exponent field 0 has its subnormal value, for this port alone (R110). -/
def f64Mag (w : BitVec 64) : ℚ :=
  let v := f64Fields w
  if v.x = 0 then (v.f : ℚ) * (2 : ℚ) ^ (-1074 : Int)
  else ((2 ^ 52 + v.f : Nat) : ℚ) * (2 : ℚ) ^ ((v.x : Int) - 1075)

/-- The check of one format (R175). -/
def checkFormat (F : Format) : Option ErrorCode := if formatValid F then none else some .invalidPrecision

/-- The checks of an operation that reads A and B: A's format, then B's, then that they are equal (R170, R178). -/
def checkBoth (q : Request) : Option ErrorCode :=
  if !formatValid (tagOf q.a) then some .invalidPrecision
  else if !formatValid (tagOf q.b) then some .invalidPrecision
  else if tagOf q.a ≠ tagOf q.b then some .precisionMismatch
  else none

/-- The checks of FCAST: A's format, then the target (R160, R170). -/
def checkAAndTarget (q : Request) (t : Format) : Option ErrorCode :=
  if !formatValid (tagOf q.a) then some .invalidPrecision
  else if !formatValid t then some .invalidPrecision
  else none

end Sys2Proof.Machine
end

