-- ==== Sys2Proof/Machine/Flags.lean ====
section
/-! DEFINITION. The block has no status flags, condition codes or exception flags (spec/10_state.md R28,
spec/60_exceptions.md R173). What stands for them is computed here: the error code of `R_ERR` (R171), and the bits an
operation writes to `R_WORD` instead of a value: a predicate's truth value (R150) and the class bits (R112). -/

namespace Sys2Proof.Machine

/-- The number of an error in `R_ERR` (R171). -/
def errorBits : ErrorCode → BitVec 2
  | .invalidPrecision => 1#2
  | .precisionMismatch => 2#2
  | .illegalOperation => 3#2

/-- `zext_64(p)` for a truth value `p` (R150). -/
def predicateWord (p : Bool) : BitVec 64 := (BitVec.ofBool p).setWidth 64

/-- The class bits of FCLASS: bit 0 is_zero, bit 1 is_infinite, bit 2 is_nan, bit 3 is_positive (R112). -/
def classWord (F : Format) (v : Value) : BitVec 64 :=
  let c := classOf F v
  (BitVec.ofBool (!v.s) ++ (BitVec.ofBool (decide (c = .nan)) ++
    (BitVec.ofBool (decide (c = .inf)) ++ BitVec.ofBool (decide (c = .zero))))).setWidth 64

end Sys2Proof.Machine
end

