-- ==== Sys2Proof/Machine/Ops.lean ====
section
/-! DEFINITION. The operations every meaning and every step share: building a response (spec/60_exceptions.md R174,
R176), completing a transaction (spec/70_reset_and_hazards.md R191), raising an error, accepting a request (R190),
reset (R193) and the host's next drive of the pins. -/

namespace Sys2Proof.Machine

/-- What one step answers. -/
abbrev Outcome := Host.Outcome State Fault Refusal

/-- The response of an error: its code, all value registers 0 (R174). -/
def errorResponse (c : ErrorCode) : Response := { zeroResponse with rErr := errorBits c }

/-- The response that carries a value of format `F`: `R_M`, `R_E`, `R_BITS`, the other registers 0 (R176). -/
def valueResponse (F : Format) (v : Value) : Response :=
  { zeroResponse with rM := BitVec.ofNat 16 F.m, rE := BitVec.ofNat 8 F.e, rBits := pack F v }

/-- The response that carries a 64-bit word: `R_WORD`, the other registers 0 (R176). -/
def wordResponse (w : BitVec 64) : Response := { zeroResponse with rWord := w }

/-- The first failing check ends the transaction with its error; else the operation's response stands (R170). -/
def answer (check : Option ErrorCode) (r : Response) : Response :=
  match check with
  | some c => errorResponse c
  | none => r

/-- The draw `d_nan` of the transaction now completing (R133). Free: log entry 4. -/
def currentDraw (s : State) : NanDraw := ⟨Config.nanSign s.draws, Config.nanPayload s.draws⟩

/-- Completion: every response register is written, `BUSY <- 0`, `DONE <- 1`, all at one edge, and the transaction's
draw is used up (R44, R176, R191). -/
def complete (r : Response) (s : State) : State :=
  { s with resp := r, busy := false, done := true, edgesLeft := 0, draws := s.draws + 1 }

/-- Raising an error: the transaction completes with the error's response and has no other effect (R174, R180). -/
def raiseError (c : ErrorCode) (s : State) : State := complete (errorResponse c) s

/-- The completion of an illegal command: IllegalOperation before every other check (R67, R172). -/
def runIllegal (s : State) : Outcome := .next (raiseError .illegalOperation s)

/-- The host drives the pins for the edge after this one (log entry 5). -/
def hostDrives (s : State) : State :=
  match s.drive with
  | [] => s
  | p :: ps => { s with pins := p, drive := ps }

/-- Reset: every piece of the block's state takes its reset value; the pins and the draws are no state of the block
and stay (R32, R193). -/
def resetBlock (s : State) : State :=
  { s with lq := zeroRequest, resp := zeroResponse, busy := false, done := false, edgesLeft := 0 }

/-- Acceptance: latch the request, `BUSY <- 1`, `DONE <- 0`; the response registers keep their values (R26, R190). -/
def accept (q : Request) (s : State) : State :=
  { s with lq := q, busy := true, done := false, edgesLeft := Config.latency q }

/-- An edge at which a transaction is in progress and does not complete (R190, R191). -/
def awaitEdge (s : State) : State := { s with edgesLeft := s.edgesLeft - 1 }

end Sys2Proof.Machine
end

