-- ==== Sys2Proof/Machine/Rounding.lean ====
section
/-! DEFINITION. Round-and-pack, the one function every value-producing operation ends with
(spec/41_rounding.md R120 to R127; the part fp_rounding_normalizer). -/

namespace Sys2Proof.Machine

/-- `ilog2(q)`: for `q > 0` the `k` with `2^k <= q < 2^(k+1)` (R7). The bit lengths of numerator and denominator give `k`
or `k + 1`; the comparison decides. -/
def ilog2 (q : ℚ) : Int :=
  let k : Int := (Nat.log2 q.num.natAbs : Int) - Nat.log2 q.den
  if (2 : ℚ) ^ k ≤ q then k else k - 1

/-- `n` after rounding `t` to the nearest integer, ties to even (R121, R123). -/
def roundEven (t : ℚ) : Int :=
  let n := t.floor
  let r := t - n
  if r > 1 / 2 ∨ (r = 1 / 2 ∧ n % 2 = 1) then n + 1 else n

/-- Overflow, underflow or the NORMAL value with significand `n` and unbiased exponent `k`: one range check, after
rounding, on the biased exponent (R121, R124 to R126). -/
def packNormal (F : Format) (s : Bool) (n k : Int) : Value :=
  let xb := k + bias F.e
  if xb > xMax F.e then infV F s
  else if xb < 1 then zeroV F s
  else ⟨s, xb.toNat, (n - 2 ^ F.m).toNat⟩

/-- A carry out of the mantissa gives the significand `2^m` and the next exponent (R121). -/
def carryPack (F : Format) (s : Bool) (n k : Int) : Value :=
  if n = 2 ^ (F.m + 1) then packNormal F s (2 ^ F.m) (k + 1) else packNormal F s n k

/-- `RP(F, s, q)` for `q > 0` (R121). -/
def roundPack (F : Format) (s : Bool) (q : ℚ) : Value :=
  let k := ilog2 q
  carryPack F s (roundEven (q * (2 : ℚ) ^ ((F.m : Int) - k))) k

end Sys2Proof.Machine
end

