-- ==== Sys2Proof/Machine/AddSub.lean ====
section
/-! DEFINITION. FADD and FSUB (spec/42_add_sub.md R130 to R136; the part fp_adder_variable_width). -/

namespace Sys2Proof.Machine

/-- The signed value an addend contributes: 0 for a zero, `(-1)^s * mag` for a NORMAL value (R131). -/
def addend (F : Format) (v : Value) : ℚ := if classOf F v = .zero then 0 else signed v.s (mag F v)

/-- An exact finite sum, rounded: exact cancellation gives `+0` (R131, R135). -/
def roundSum (F : Format) (t : ℚ) : Value :=
  if t = 0 then zeroV F false else roundPack F (decide (t < 0)) |t|

/-- FADD's result for operands `a`, `b` of format `F` and the draw `d` (R131). -/
def addValue (F : Format) (d : Value) (a b : Value) : Value :=
  let ca := classOf F a
  let cb := classOf F b
  if ca = .nan ∨ cb = .nan then nanR F
  else if ca = .inf ∧ cb = .inf then (if a.s = b.s then infV F a.s else d)
  else if ca = .inf then infV F a.s
  else if cb = .inf then infV F b.s
  else if ca = .zero ∧ cb = .zero then zeroV F (if a.s = b.s then a.s else false)
  else roundSum F (addend F a + addend F b)

/-- FSUB's result: FADD's for `b` with its sign flipped, its draw included (R132). -/
def subValue (F : Format) (d : Value) (a b : Value) : Value := addValue F d a (negate b)

/-- FADD's response (R131, R170). -/
def faddResponse (q : Request) (d : NanDraw) : Response :=
  let F := tagOf q.a
  answer (checkBoth q) (valueResponse F (addValue F (drawnNaN F d) (valueOf q.a) (valueOf q.b)))

/-- FSUB's response (R132, R170). -/
def fsubResponse (q : Request) (d : NanDraw) : Response :=
  let F := tagOf q.a
  answer (checkBoth q) (valueResponse F (subValue F (drawnNaN F d) (valueOf q.a) (valueOf q.b)))

/-- FADD (R131). -/
def execFadd (s : State) : Outcome := .next (complete (faddResponse s.lq (currentDraw s)) s)

/-- FSUB (R132). -/
def execFsub (s : State) : Outcome := .next (complete (fsubResponse s.lq (currentDraw s)) s)

end Sys2Proof.Machine
end

