-- ==== Sys2Proof/Machine/Cast.lean ====
section
/-! DEFINITION. FCAST and FCVT.F64.X (spec/45_cast.md R160 to R165; the part fp_rounding_normalizer). -/

namespace Sys2Proof.Machine

/-- FCAST's result for a value `a` of format `F` and the target format `T` (R161). -/
def castValue (F T : Format) (a : Value) : Value :=
  if T = F then a
  else match classOf F a with
    | .nan => qNaN T a.s
    | .zero => zeroV T a.s
    | .inf => infV T a.s
    | .normal => roundPack T a.s (mag F a)

/-- FCAST's response (R160, R161). -/
def fcastResponse (t : Format) (q : Request) : Response :=
  answer (checkAAndTarget q t) (valueResponse t (castValue (tagOf q.a) t (valueOf q.a)))

/-- FCVT.F64.X's response: the cast to (52, 11), as a 64-bit word (R162). -/
def fcvtF64XResponse (q : Request) : Response :=
  answer (checkFormat (tagOf q.a)) (wordResponse (packWord64 (castValue (tagOf q.a) f64Format (valueOf q.a))))

/-- FCAST (R161). -/
def execFcast (t : Format) (s : State) : Outcome := .next (complete (fcastResponse t s.lq) s)

/-- FCVT.F64.X (R162). -/
def execFcvtF64X (s : State) : Outcome := .next (complete (fcvtF64XResponse s.lq) s)

end Sys2Proof.Machine
end

