-- ==== Sys2Proof/Machine/Compare.lean ====
section
/-! DEFINITION. FEQ, FNE, FLT, FLE, FGT and FGE (spec/44_compare.md R150 to R158; the part fp_comparator). -/

namespace Sys2Proof.Machine

/-- An extended rational: an element of the rationals with `-∞` and `+∞` (R151). -/
inductive ExtRat where
  | negInf
  | fin (q : ℚ)
  | posInf
deriving DecidableEq, Repr

/-- The usual strict order of the extended rationals (R151). -/
def extLt : ExtRat → ExtRat → Bool
  | .negInf, .negInf => false
  | .negInf, .fin _ => true
  | .negInf, .posInf => true
  | .fin _, .negInf => false
  | .fin p, .fin q => decide (p < q)
  | .fin _, .posInf => true
  | .posInf, .negInf => false
  | .posInf, .fin _ => false
  | .posInf, .posInf => false

/-- The usual order of the extended rationals (R151). -/
def extLe (x y : ExtRat) : Bool := extLt x y || decide (x = y)

/-- `ext(v)`, the extended value of a non-NaN value; every zero pattern is 0 (R151). A NaN has none: the answer for it
is never used, since every predicate asks `unordered` first. -/
def ext (F : Format) (v : Value) : ExtRat :=
  match classOf F v with
  | .zero => .fin 0
  | .normal => .fin (signed v.s (mag F v))
  | .inf => if v.s then .negInf else .posInf
  | .nan => .fin 0

/-- One of the operands is a NaN (R151). -/
def unordered (F : Format) (a b : Value) : Bool := decide (classOf F a = .nan) || decide (classOf F b = .nan)

/-- FEQ's predicate (R152). -/
def feqHolds (F : Format) (a b : Value) : Bool := !unordered F a b && decide (ext F a = ext F b)

/-- FNE's predicate (R153). -/
def fneHolds (F : Format) (a b : Value) : Bool := unordered F a b || decide (ext F a ≠ ext F b)

/-- FLT's predicate (R154). -/
def fltHolds (F : Format) (a b : Value) : Bool := !unordered F a b && extLt (ext F a) (ext F b)

/-- FLE's predicate (R155). -/
def fleHolds (F : Format) (a b : Value) : Bool := !unordered F a b && extLe (ext F a) (ext F b)

/-- FGT's predicate (R156). -/
def fgtHolds (F : Format) (a b : Value) : Bool := !unordered F a b && extLt (ext F b) (ext F a)

/-- FGE's predicate (R157). -/
def fgeHolds (F : Format) (a b : Value) : Bool := !unordered F a b && extLe (ext F b) (ext F a)

/-- The response of a comparison: its checks, then the predicate's truth value in `R_WORD` (R150, R170). -/
def compareResponse (holds : Format → Value → Value → Bool) (q : Request) : Response :=
  answer (checkBoth q) (wordResponse (predicateWord (holds (tagOf q.a) (valueOf q.a) (valueOf q.b))))

/-- FEQ's response (R152). -/
def feqResponse (q : Request) : Response := compareResponse feqHolds q

/-- FNE's response (R153). -/
def fneResponse (q : Request) : Response := compareResponse fneHolds q

/-- FLT's response (R154). -/
def fltResponse (q : Request) : Response := compareResponse fltHolds q

/-- FLE's response (R155). -/
def fleResponse (q : Request) : Response := compareResponse fleHolds q

/-- FGT's response (R156). -/
def fgtResponse (q : Request) : Response := compareResponse fgtHolds q

/-- FGE's response (R157). -/
def fgeResponse (q : Request) : Response := compareResponse fgeHolds q

/-- FEQ (R152). -/
def execFeq (s : State) : Outcome := .next (complete (feqResponse s.lq) s)

/-- FNE (R153). -/
def execFne (s : State) : Outcome := .next (complete (fneResponse s.lq) s)

/-- FLT (R154). -/
def execFlt (s : State) : Outcome := .next (complete (fltResponse s.lq) s)

/-- FLE (R155). -/
def execFle (s : State) : Outcome := .next (complete (fleResponse s.lq) s)

/-- FGT (R156). -/
def execFgt (s : State) : Outcome := .next (complete (fgtResponse s.lq) s)

/-- FGE (R157). -/
def execFge (s : State) : Outcome := .next (complete (fgeResponse s.lq) s)

end Sys2Proof.Machine
end

