-- ==== Sys2Proof/Machine/MulDiv.lean ====
section
/-! DEFINITION. FMUL and FDIV (spec/43_mul_div.md R140 to R143; the parts fp_multiplier_variable_width and
fp_divider_variable_width). -/

namespace Sys2Proof.Machine

/-- FMUL's result for operands `a`, `b` of format `F` (R140, R141). -/
def mulValue (F : Format) (a b : Value) : Value :=
  let ca := classOf F a
  let cb := classOf F b
  let sx := a.s ^^ b.s
  if ca = .nan ∨ cb = .nan then nanR F
  else if (ca = .zero ∧ cb = .inf) ∨ (ca = .inf ∧ cb = .zero) then nanR F
  else if ca = .inf ∨ cb = .inf then infV F sx
  else if ca = .zero ∨ cb = .zero then zeroV F sx
  else roundPack F sx (mag F a * mag F b)

/-- FDIV's result for dividend `a` and divisor `b` of format `F` (R140, R142, R143). -/
def divValue (F : Format) (a b : Value) : Value :=
  let ca := classOf F a
  let cb := classOf F b
  let sx := a.s ^^ b.s
  if ca = .nan ∨ cb = .nan then nanR F
  else if ca = .inf ∧ cb = .inf then nanR F
  else if ca = .zero ∧ cb = .zero then nanR F
  else if ca = .inf then infV F sx
  else if cb = .inf then zeroV F sx
  else if cb = .zero then infV F sx
  else if ca = .zero then zeroV F sx
  else roundPack F sx (mag F a / mag F b)

/-- FMUL's response (R141, R170). -/
def fmulResponse (q : Request) : Response :=
  let F := tagOf q.a
  answer (checkBoth q) (valueResponse F (mulValue F (valueOf q.a) (valueOf q.b)))

/-- FDIV's response (R142, R170). -/
def fdivResponse (q : Request) : Response :=
  let F := tagOf q.a
  answer (checkBoth q) (valueResponse F (divValue F (valueOf q.a) (valueOf q.b)))

/-- FMUL (R141). -/
def execFmul (s : State) : Outcome := .next (complete (fmulResponse s.lq) s)

/-- FDIV (R142). -/
def execFdiv (s : State) : Outcome := .next (complete (fdivResponse s.lq) s)

end Sys2Proof.Machine
end

