-- ==== Sys2Proof/Machine/Special.lean ====
section
/-! DEFINITION. FCVT.X.F64, FCLASS, FSETZERO, FSETINF and FSETNAN (spec/40_representation.md R110 to R115; the parts
fp_special_value_logic and fp_rounding_normalizer). -/

namespace Sys2Proof.Machine

/-- FCVT.X.F64's result for a binary64 word and a target format (R111). -/
def fromF64Value (T : Format) (w : BitVec 64) : Value :=
  let s := (f64Fields w).s
  match f64ClassOf w with
  | .nan => qNaN T s
  | .inf => infV T s
  | .zero => zeroV T s
  | .finite => roundPack T s (f64Mag w)

/-- FCVT.X.F64's response (R111). -/
def fcvtXF64Response (t : Format) (q : Request) : Response :=
  answer (checkFormat t) (valueResponse t (fromF64Value t q.f64))

/-- FCLASS's response (R112). -/
def fclassResponse (q : Request) : Response :=
  answer (checkFormat (tagOf q.a)) (wordResponse (classWord (tagOf q.a) (valueOf q.a)))

/-- FSETZERO's response: always `+0` (R113). -/
def fsetzeroResponse (t : Format) : Response := answer (checkFormat t) (valueResponse t (zeroV t false))

/-- FSETINF's response: the sign is `sg` (R115). -/
def fsetinfResponse (t : Format) (sg : Bool) : Response := answer (checkFormat t) (valueResponse t (infV t sg))

/-- FSETNAN's response: the canonical NaN with sign 0 (R114). -/
def fsetnanResponse (t : Format) : Response := answer (checkFormat t) (valueResponse t (qNaN t false))

/-- FCVT.X.F64 (R111). -/
def execFcvtXF64 (t : Format) (s : State) : Outcome := .next (complete (fcvtXF64Response t s.lq) s)

/-- FCLASS (R112). -/
def execFclass (s : State) : Outcome := .next (complete (fclassResponse s.lq) s)

/-- FSETZERO (R113). -/
def execFsetzero (t : Format) (s : State) : Outcome := .next (complete (fsetzeroResponse t) s)

/-- FSETINF (R115). -/
def execFsetinf (t : Format) (sg : Bool) (s : State) : Outcome := .next (complete (fsetinfResponse t sg) s)

/-- FSETNAN (R114). -/
def execFsetnan (t : Format) (s : State) : Outcome := .next (complete (fsetnanResponse t) s)

end Sys2Proof.Machine
end

