-- ==== Sys2Proof/Machine/Dispatch.lean ====
section
/-! DEFINITION. The dispatch of an operation to its rule (spec/60_exceptions.md R170, spec/30_encoding.md R66): one
arm per row of the opcode table. -/

namespace Sys2Proof.Machine

/-- Run an operation at the edge at which its transaction completes. -/
def exec (i : Instr) (s : State) : Host.Outcome State Fault Refusal :=
  match i with
  | .fadd => Sys2Proof.Machine.execFadd s
  | .fsub => Sys2Proof.Machine.execFsub s
  | .fmul => Sys2Proof.Machine.execFmul s
  | .fdiv => Sys2Proof.Machine.execFdiv s
  | .feq => Sys2Proof.Machine.execFeq s
  | .fne => Sys2Proof.Machine.execFne s
  | .flt => Sys2Proof.Machine.execFlt s
  | .fle => Sys2Proof.Machine.execFle s
  | .fgt => Sys2Proof.Machine.execFgt s
  | .fge => Sys2Proof.Machine.execFge s
  | .fcast t => Sys2Proof.Machine.execFcast t s
  | .fcvtXF64 t => Sys2Proof.Machine.execFcvtXF64 t s
  | .fcvtF64X => Sys2Proof.Machine.execFcvtF64X s
  | .fclass => Sys2Proof.Machine.execFclass s
  | .fsetzero t => Sys2Proof.Machine.execFsetzero t s
  | .fsetinf t sg => Sys2Proof.Machine.execFsetinf t sg s
  | .fsetnan t => Sys2Proof.Machine.execFsetnan t s

end Sys2Proof.Machine
end

