-- ==== Sys2Proof/Machine/Step.lean ====
section
/-! DEFINITION. One step is one rising edge of `CLK` (spec/70_reset_and_hazards.md R190 to R193). -/

namespace Sys2Proof.Machine

/-- The edge at which the transaction in progress completes: the latched command is decoded and its operation runs, or
the command is illegal (R170, R191). -/
def runCommand (cmd : Cmd) (s : State) : Host.Outcome State Fault Refusal :=
  match decode cmd with
  | .ok i => exec i s
  | .error _ => runIllegal s

/-- One rising edge of `CLK`. `RST` comes before everything (R193); with `BUSY = 1` the transaction goes on and a START is
ignored (R190, R191, R195); with `BUSY = 0` a START is accepted (R190); else nothing changes. -/
def step (s : State) : Host.Outcome State Fault Refusal :=
  let t := hostDrives s
  if s.pins.rst then .next (resetBlock t)
  else if s.busy then
    if s.edgesLeft ≤ 1 then runCommand s.lq.cmd t else .next (awaitEdge t)
  else if s.pins.start then .next (accept s.pins.req t)
  else .next t

/-- `s` with the command of `nbits` bits that are `w` in progress and due at the coming edge, so that the next step
decodes and runs exactly it: the latched command word, `BUSY`, `DONE` (0 while a transaction is in progress), one edge
left, and no reset on the pins (log entry 7). -/
def State.withFetchWord (s : State) (nbits w : Nat) : State :=
  { s with
    pins := { s.pins with rst := false }
    lq := { s.lq with cmd := BitVec.ofNat 32 (w % 2 ^ nbits) }
    busy := true
    done := false
    edgesLeft := 1 }

end Sys2Proof.Machine
end

