-- ==== Sys2Proof/Machine/Transaction.lean ====
section
/-! DEFINITION. The transaction-level view of the block: the response of one request, with no clock
(spec/60_exceptions.md R170, spec/70_reset_and_hazards.md R198). The cycle model is Step.lean; that the two agree is
stated, not assumed. -/

namespace Sys2Proof.Machine

/-- The response of an operation to a request and a draw: R66's rule for it, after the checks of R170. -/
def respond (i : Instr) (q : Request) (d : NanDraw) : Response :=
  match i with
  | .fadd => faddResponse q d
  | .fsub => fsubResponse q d
  | .fmul => fmulResponse q
  | .fdiv => fdivResponse q
  | .feq => feqResponse q
  | .fne => fneResponse q
  | .flt => fltResponse q
  | .fle => fleResponse q
  | .fgt => fgtResponse q
  | .fge => fgeResponse q
  | .fcast t => fcastResponse t q
  | .fcvtXF64 t => fcvtXF64Response t q
  | .fcvtF64X => fcvtF64XResponse q
  | .fclass => fclassResponse q
  | .fsetzero t => fsetzeroResponse t
  | .fsetinf t sg => fsetinfResponse t sg
  | .fsetnan t => fsetnanResponse t

/-- `Exec(LQ, d_nan)`: a total function of the latched request and the draw (R31, R170). -/
def transact (q : Request) (d : NanDraw) : Response :=
  match decode q.cmd with
  | .ok i => respond i q d
  | .error _ => errorResponse .illegalOperation

end Sys2Proof.Machine
end

