-- ==== Sys2Proof/Safety.lean ====
section
/-! DEFINITION. What counts as a safe run of the block and its host, and the vocabulary of the statements: which
inputs an operation reads (spec/30_encoding.md R66), what the host must respect (spec/70_reset_and_hazards.md R195),
and the invariants of the state. -/

namespace Sys2Proof.Machine

/-- The operation reads operand A (R66, column "reads"). -/
def readsA : Instr → Bool
  | .fadd | .fsub | .fmul | .fdiv => true
  | .feq | .fne | .flt | .fle | .fgt | .fge => true
  | .fcast _ | .fcvtF64X | .fclass => true
  | .fcvtXF64 _ | .fsetzero _ | .fsetinf _ _ | .fsetnan _ => false

/-- The operation reads operand B (R66, column "reads"). -/
def readsB : Instr → Bool
  | .fadd | .fsub | .fmul | .fdiv => true
  | .feq | .fne | .flt | .fle | .fgt | .fge => true
  | .fcast _ | .fcvtF64X | .fclass => false
  | .fcvtXF64 _ | .fsetzero _ | .fsetinf _ _ | .fsetnan _ => false

/-- The target format the operation reads, if it reads one (R66, column "reads"). -/
def targetRead : Instr → Option Format
  | .fadd | .fsub | .fmul | .fdiv => none
  | .feq | .fne | .flt | .fle | .fgt | .fge => none
  | .fcvtF64X | .fclass => none
  | .fcast t | .fcvtXF64 t | .fsetzero t | .fsetnan t => some t
  | .fsetinf t _ => some t

/-- The operation writes a word to `R_WORD`, not a value to `R_M`, `R_E`, `R_BITS` (R66, column "writes"). -/
def writesWord : Instr → Bool
  | .fadd | .fsub | .fmul | .fdiv => false
  | .feq | .fne | .flt | .fle | .fgt | .fge => true
  | .fcvtF64X | .fclass => true
  | .fcast _ | .fcvtXF64 _ | .fsetzero _ | .fsetinf _ _ | .fsetnan _ => false

/-- Some format the operation reads is not valid (R175). -/
def readsInvalidFormat (i : Instr) (q : Request) : Prop :=
  (readsA i = true ∧ formatValid (tagOf q.a) = false) ∨ (readsB i = true ∧ formatValid (tagOf q.b) = false) ∨
    (∃ t, targetRead i = some t ∧ formatValid t = false)

/-- The operation reads two operands whose formats differ (R177). -/
def readsMismatch (i : Instr) (q : Request) : Prop :=
  readsA i = true ∧ readsB i = true ∧ tagOf q.a ≠ tagOf q.b

/-- The host respects the handshake at the coming edge: no START while `BUSY = 1` (R195). -/
def hostRespectsBusy (s : State) : Prop := s.busy = true → s.pins.start = false

/-- What a host that reads only while `DONE = 1` sees (R33, R191, R195). -/
def readResponse (s : State) : Option Response := if s.done then some s.resp else none

/-- What a host program's binding `v <- OP ...` holds: a value with its format tag, or a word (R70). -/
inductive Bound where
  | value (F : Format) (bits : PortWord)
  | word (w : BitVec 64)
deriving DecidableEq, Repr

/-- The binding of an operation's response: it takes effect only when `R_ERR = 0` (R70, R195). -/
def bindResponse (i : Instr) (r : Response) : Option Bound :=
  if r.rErr ≠ 0#2 then none
  else if writesWord i then some (.word r.rWord)
  else some (.value ⟨r.rM.toNat, r.rE.toNat⟩ r.rBits)

/-- The coming edge completes the transaction in progress (R191). -/
def completing (s : State) : Prop := s.pins.rst = false ∧ s.busy = true ∧ s.edgesLeft ≤ 1

/-- The host drives no reset at the coming edge nor at a later one. -/
def noReset (s : State) : Prop := s.pins.rst = false ∧ ∀ p ∈ s.drive, p.rst = false

/-- The latched operands have one valid format `F` (the premise of R130, R140, R150). -/
def sameFormat (F : Format) (q : Request) : Prop := tagOf q.a = F ∧ tagOf q.b = F ∧ formatValid F = true

/-- A response as the block writes it: an error carries no value (R174); a success carries a value of a valid format
with nothing above its bits (R61), or a word (R176). -/
def responseWellFormed (r : Response) : Prop :=
  (r.rErr ≠ 0#2 → r.rM = 0#16 ∧ r.rE = 0#8 ∧ r.rBits = 0#portBits ∧ r.rWord = 0#64) ∧
  ((r.rM = 0#16 ∧ r.rE = 0#8 ∧ r.rBits = 0#portBits) ∨
    (r.rWord = 0#64 ∧ formatValid ⟨r.rM.toNat, r.rE.toNat⟩ = true ∧
      r.rBits.toNat < 2 ^ (1 + r.rM.toNat + r.rE.toNat)))

/-- The invariant of the handshake and the response registers: `BUSY` and `DONE` are never both 1; edges are left
exactly while a transaction is in progress, never more than its latency (R190, R191); the response is well formed;
and before the first transaction after reset everything holds its reset value (R32, R33). -/
def HandshakeInv (s : State) : Prop :=
  (s.busy = true → s.done = false) ∧ (s.busy = true ↔ 1 ≤ s.edgesLeft) ∧
  s.edgesLeft ≤ Config.latency s.lq ∧ responseWellFormed s.resp ∧
  (s.busy = false → s.done = false → s.resp = zeroResponse ∧ s.lq = zeroRequest)

/-- Both value words of a request fit their `W`-bit ports (R5, R25). -/
def requestFits (q : Request) : Prop :=
  q.a.bits.toNat < 2 ^ Config.portWidth ∧ q.b.bits.toNat < 2 ^ Config.portWidth

/-- Every value port of the state holds a `W`-bit word (R5, R25, R27; log entry 1). -/
def portsFit (s : State) : Prop :=
  requestFits s.pins.req ∧ (∀ p ∈ s.drive, requestFits p.req) ∧ requestFits s.lq ∧
    s.resp.rBits.toNat < 2 ^ Config.portWidth

/-- The response held while `DONE = 1` is the response to the latched request, for some draw (R31, R45). -/
def responseOfRequest (s : State) : Prop := s.done = true → ∃ d, s.resp = transact s.lq d

end Sys2Proof.Machine
end

