-- ==== Sys2Proof/Certificates/Slice0/Obligations.lean ====
section
/-! DEFINITION. The statements about the block. Each docstring names the rules of spec/ that it formalises. The block
has no memory, no program counter, no flags and no privilege modes (R20, R21, R28, R40, R182), so a frame here speaks
of the pins, the host's drive, the latched request, the response registers, the handshake and the draws: all of State. -/

open Sys2Proof Sys2Proof.Machine

/-! ## Vocabulary of the statements -/

/-- `s` after its transaction has delivered the response `r`: every response register written, `BUSY <- 0`,
`DONE <- 1`, one draw used up, and NOTHING else changed (R44, R176, R191). Written out so that every statement that
concludes with it states the frame. -/
def Sys2Proof.Statements.delivered (s : State) (r : Response) : State :=
  { pins := s.pins, drive := s.drive, lq := s.lq, resp := r, busy := false, done := true, edgesLeft := 0,
    draws := s.draws + 1 }

/-- The response of an error: the code, and 0 in every other register (R174). -/
def Sys2Proof.Statements.errorOf (code : BitVec 2) : Response := ⟨code, 0#16, 0#8, 0#portBits, 0#64⟩

/-- The errors of an operation that reads A and B: InvalidPrecision where a tag is not valid, else PrecisionMismatch
where the tags differ (R170, R175, R177). -/
def Sys2Proof.Statements.PairErrors (i : Instr) (s : State) : Prop :=
  (formatValid (tagOf s.lq.a) = false ∨ formatValid (tagOf s.lq.b) = false →
    exec i s = .next (Statements.delivered s (Statements.errorOf 1#2))) ∧
  (formatValid (tagOf s.lq.a) = true → formatValid (tagOf s.lq.b) = true → tagOf s.lq.a ≠ tagOf s.lq.b →
    exec i s = .next (Statements.delivered s (Statements.errorOf 2#2)))

/-- The errors of an operation that reads A alone (R170, R175). -/
def Sys2Proof.Statements.OperandErrors (i : Instr) (s : State) : Prop :=
  formatValid (tagOf s.lq.a) = false → exec i s = .next (Statements.delivered s (Statements.errorOf 1#2))

/-- The errors of an operation that reads the target format `T` alone (R170, R175). -/
def Sys2Proof.Statements.TargetErrors (i : Instr) (T : Format) (s : State) : Prop :=
  formatValid T = false → exec i s = .next (Statements.delivered s (Statements.errorOf 1#2))

/-- `opc` is the row of the operation that `i` makes from the fields `sg` and `(tm, te)` (R66). -/
def Sys2Proof.Statements.rowIs (opc : BitVec 5) (i : Bool → Format → Instr) : Prop :=
  ∀ sg t, decodeOpc opc sg t = .ok (i sg t)

/-- A class that has a finite value: ZERO or NORMAL (R102, R103). -/
def Sys2Proof.Statements.finite (F : Format) (v : Value) : Prop := classOf F v = .zero ∨ classOf F v = .normal

/-- The extended rationals with the library's order, `-∞` at the bottom and `+∞` at the top (R151). -/
def Sys2Proof.Statements.order : ExtRat → WithBot (WithTop ℚ)
  | .negInf => ⊥
  | .fin q => ((q : WithTop ℚ) : WithBot (WithTop ℚ))
  | .posInf => ((⊤ : WithTop ℚ) : WithBot (WithTop ℚ))

/-- R131's table, case by case, as a relation between the operands and the result. -/
def Sys2Proof.Statements.SumRule (F : Format) (a b r : Value) : Prop :=
  (classOf F a = .nan ∨ classOf F b = .nan → r = qNaN F false) ∧
  (classOf F a = .inf → classOf F b = .inf → a.s = b.s → r = infV F a.s) ∧
  (classOf F a = .inf → classOf F b = .inf → a.s ≠ b.s → classOf F r = .nan ∧ r.inFormat F = true) ∧
  (classOf F a = .inf → Statements.finite F b → r = infV F a.s) ∧
  (Statements.finite F a → classOf F b = .inf → r = infV F b.s) ∧
  (classOf F a = .zero → classOf F b = .zero → a.s = b.s → r = zeroV F a.s) ∧
  (classOf F a = .zero → classOf F b = .zero → a.s ≠ b.s → r = zeroV F false) ∧
  (∀ x y : ℚ, Statements.finite F a → Statements.finite F b → ext F a = .fin x → ext F b = .fin y →
    ¬(classOf F a = .zero ∧ classOf F b = .zero) →
    (x + y = 0 → r = zeroV F false) ∧ (x + y < 0 → r = roundPack F true (-(x + y))) ∧
    (0 < x + y → r = roundPack F false (x + y)))

/-- R141's table, with R140's sign. -/
def Sys2Proof.Statements.ProductRule (F : Format) (a b r : Value) : Prop :=
  (classOf F a = .nan ∨ classOf F b = .nan → r = qNaN F false) ∧
  (classOf F a = .zero → classOf F b = .inf → r = qNaN F false) ∧
  (classOf F a = .inf → classOf F b = .zero → r = qNaN F false) ∧
  (classOf F a = .inf → classOf F b = .inf → r = infV F (a.s ^^ b.s)) ∧
  (classOf F a = .inf → classOf F b = .normal → r = infV F (a.s ^^ b.s)) ∧
  (classOf F a = .normal → classOf F b = .inf → r = infV F (a.s ^^ b.s)) ∧
  (classOf F a = .zero → Statements.finite F b → r = zeroV F (a.s ^^ b.s)) ∧
  (Statements.finite F a → classOf F b = .zero → r = zeroV F (a.s ^^ b.s)) ∧
  (classOf F a = .normal → classOf F b = .normal → r = roundPack F (a.s ^^ b.s) (mag F a * mag F b))

/-- R142's table and R143's two pairs, with R140's sign. -/
def Sys2Proof.Statements.QuotientRule (F : Format) (a b r : Value) : Prop :=
  (classOf F a = .nan ∨ classOf F b = .nan → r = qNaN F false) ∧
  (classOf F a = .inf → classOf F b = .inf → r = qNaN F false) ∧
  (classOf F a = .zero → classOf F b = .zero → r = qNaN F false) ∧
  (classOf F a = .inf → Statements.finite F b → r = infV F (a.s ^^ b.s)) ∧
  (Statements.finite F a → classOf F b = .inf → r = zeroV F (a.s ^^ b.s)) ∧
  (classOf F a = .normal → classOf F b = .zero → r = infV F (a.s ^^ b.s)) ∧
  (classOf F a = .zero → classOf F b = .normal → r = zeroV F (a.s ^^ b.s)) ∧
  (classOf F a = .normal → classOf F b = .normal → r = roundPack F (a.s ^^ b.s) (mag F a / mag F b))

/-- R161's cases 1 to 5. -/
def Sys2Proof.Statements.CastRule (F T : Format) (a r : Value) : Prop :=
  (T = F → r = a) ∧
  (T ≠ F → classOf F a = .nan → r = qNaN T a.s) ∧
  (T ≠ F → classOf F a = .zero → r = zeroV T a.s) ∧
  (T ≠ F → classOf F a = .inf → r = infV T a.s) ∧
  (T ≠ F → classOf F a = .normal → r = roundPack T a.s (mag F a))

/-! ## Reset and handshake -/

/-- R32: what reset leaves. -/
def Obligations.ResetStateIsAllZero : Prop :=
  State.reset.busy = false ∧ State.reset.done = false ∧
  State.reset.resp.rErr = 0#2 ∧ State.reset.resp.rM = 0#16 ∧ State.reset.resp.rE = 0#8 ∧
  State.reset.resp.rBits.toNat = 0 ∧ State.reset.resp.rWord = 0#64 ∧
  State.reset.lq.cmd = 0#32 ∧ State.reset.lq.f64 = 0#64 ∧
  State.reset.lq.a.m = 0#16 ∧ State.reset.lq.a.e = 0#8 ∧ State.reset.lq.a.bits.toNat = 0 ∧
  State.reset.lq.b.m = 0#16 ∧ State.reset.lq.b.e = 0#8 ∧ State.reset.lq.b.bits.toNat = 0

/-- R193: an edge with RST = 1 resets every piece of the block's state whatever START and BUSY are, and an abandoned
transaction writes no response. -/
def Obligations.ResetEdgeClearsBlock : Prop :=
  ∀ s : State, s.pins.rst = true →
    ∃ t, step s = .next t ∧ t.busy = false ∧ t.done = false ∧ t.lq = State.reset.lq ∧ t.resp = State.reset.resp

/-- R190: with RST = 0 a START is accepted when BUSY = 0: the request is latched, BUSY rises, DONE falls and the
response registers keep their values; when BUSY = 1 it is ignored: nothing is latched and the edge does what it does
without the START. -/
def Obligations.StartIsAcceptedIdleAndIgnoredBusy : Prop :=
  (∀ s : State, s.pins.rst = false → s.pins.start = true → s.busy = false →
    ∃ t, step s = .next t ∧ t.lq = s.pins.req ∧ t.busy = true ∧ t.done = false ∧ t.resp = s.resp) ∧
  (∀ s : State, s.pins.rst = false → s.pins.start = true → s.busy = true →
    ∃ t u, step s = .next t ∧ step { s with pins := { s.pins with start := false } } = .next u ∧ t.lq = s.lq ∧
      { t with pins := u.pins } = u)

/-- R26, R190: while BUSY = 1 and RST = 0 the edge's outcome does not depend on START or on any
port: whatever the pins hold, the block's registers (and the model's edges left and draws, log entries 4 and 6) come out the
same. -/
def Obligations.BusyBlockIgnoresThePorts : Prop :=
  ∀ (s : State) (p : Pins), s.busy = true → s.pins.rst = false → p.rst = false →
    ∃ t u, step s = .next t ∧ step { s with pins := p } = .next u ∧
      t.lq = u.lq ∧ t.resp = u.resp ∧ t.busy = u.busy ∧ t.done = u.done ∧ t.edgesLeft = u.edgesLeft ∧
      t.draws = u.draws ∧ t.lq = s.lq

/-- R190, R191: an edge in the middle of a transaction writes no register; one edge fewer is left (log entry 6). -/
def Obligations.WaitingEdgeWritesNothing : Prop :=
  ∀ s : State, s.pins.rst = false → s.busy = true → 1 < s.edgesLeft →
    ∃ t, step s = .next t ∧ t.lq = s.lq ∧ t.resp = s.resp ∧ t.busy = true ∧ t.done = s.done ∧
      t.edgesLeft + 1 = s.edgesLeft ∧ t.draws = s.draws

/-- R191: with no START and no RST an idle block keeps DONE, the response and LQ. -/
def Obligations.IdleEdgeKeepsTheResponse : Prop :=
  ∀ s : State, s.pins.rst = false → s.pins.start = false → s.busy = false →
    ∃ t, step s = .next t ∧ t.lq = s.lq ∧ t.resp = s.resp ∧ t.busy = false ∧ t.done = s.done ∧
      t.edgesLeft = s.edgesLeft ∧ t.draws = s.draws

/-- R44, R191: a response register changes only at a reset edge or at the edge that completes a transaction, and there
BUSY falls and DONE rises. -/
def Obligations.ResponseChangesOnlyAtCompletion : Prop :=
  ∀ s t : State, step s = .next t → t.resp ≠ s.resp →
    s.pins.rst = true ∨ (completing s ∧ t.busy = false ∧ t.done = true)

/-- The edge that completes a transaction decodes the latched command word and runs the operation, after the host has
driven its next pins (R170, R191; the host's drive is log entry 5). -/
def Obligations.CompletingStepRunsTheDecodedInstruction : Prop :=
  ∀ (s : State) (i : Instr), completing s → decode s.lq.cmd = .ok i → step s = exec i (hostDrives s)

/-- R67, R172: a completing transaction whose opc is reserved or whose rsv is not 00 reports IllegalOperation, whatever
its operands are. -/
def Obligations.IllegalCommandReportsCodeThree : Prop :=
  ∀ s : State, completing s →
    ((opcOf s.lq.cmd).toNat ∈ [0x00, 0x05, 0x06, 0x07, 0x0E, 0x0F, 0x13, 0x14, 0x15, 0x16, 0x17, 0x1C, 0x1D, 0x1E, 0x1F] ∨
      rsvOf s.lq.cmd ≠ 0#2) →
    ∃ t, step s = .next t ∧ t.resp = Statements.errorOf 3#2 ∧ t.busy = false ∧ t.done = true ∧ t.lq = s.lq

/-- R191, R192, R198: with no reset, an accepted START is answered exactly LAT(LQ) edges after acceptance by
Exec(LQ, d_nan), and until then BUSY = 1, DONE = 0 and the old response stands. -/
def Obligations.EveryAcceptedTransactionCompletes : Prop :=
  ∀ s : State, noReset s → s.pins.start = true → s.busy = false →
    (∀ k, 1 ≤ k → k ≤ Config.latency s.pins.req →
      ∃ u : State, Host.Core.run Sys2Proof.core k s = .next u ∧ u.busy = true ∧ u.done = false ∧ u.resp = s.resp ∧
        u.lq = s.pins.req) ∧
    ∃ t : State, Host.Core.run Sys2Proof.core (1 + Config.latency s.pins.req) s = .next t ∧
      t.busy = false ∧ t.done = true ∧ t.lq = s.pins.req ∧ t.resp = transact s.pins.req (currentDraw s) ∧
      t.draws = s.draws + 1

/-- Every step keeps the invariant of the handshake and the response registers. -/
def Obligations.StepKeepsHandshakeInvariant : Prop := ∀ s t : State, HandshakeInv s → step s = .next t → HandshakeInv t

/-- Every step keeps every value port within its W bits (R5, R25, R27, R61). -/
def Obligations.StepKeepsPortWidths : Prop := ∀ s t : State, portsFit s → step s = .next t → portsFit t

/-- R31, R45: every step keeps "while DONE = 1 the response held is Exec of the latched request". -/
def Obligations.StepKeepsResponseOfRequest : Prop :=
  ∀ s t : State, responseOfRequest s → step s = .next t → responseOfRequest t

/-- The three invariants hold at reset. -/
def Obligations.InvariantsHoldAtReset : Prop :=
  HandshakeInv State.reset ∧ portsFit State.reset ∧ responseOfRequest State.reset

/-- R31: what an operation answers depends on the latched request and the draw alone: not on the previous response,
the handshake, the pins or the time. -/
def Obligations.ResponseIgnoresEarlierTransactions : Prop :=
  ∀ (i : Instr) (s s' t t' : State), s.lq = s'.lq → s.draws = s'.draws →
    exec i s = .next t → exec i s' = .next t' → t.resp = t'.resp

/-- R133, I1: the draw is visible in one case only: FADD of opposite infinities, FSUB of equal ones. -/
def Obligations.DrawIsVisibleOnlyForCancellingInfinities : Prop :=
  ∀ (i : Instr) (q : Request) (d d' : NanDraw), respond i q d ≠ respond i q d' →
    classOf (tagOf q.a) (valueOf q.a) = .inf ∧ classOf (tagOf q.a) (valueOf q.b) = .inf ∧
    ((i = .fadd ∧ (valueOf q.a).s ≠ (valueOf q.b).s) ∨ (i = .fsub ∧ (valueOf q.a).s = (valueOf q.b).s))

/-- R133: every NaN of the format is some draw, and every draw is a NaN of the format. -/
def Obligations.DrawsAreExactlyTheNaNs : Prop :=
  ∀ (F : Format) (v : Value), formatValid F = true →
    ((classOf F v = .nan ∧ v.inFormat F = true) ↔ ∃ d, drawnNaN F d = v)

/-! ## Encoding -/

/-- The encoder and the decoder agree on every instruction and every operand value the fields admit (R63, R66). -/
def Obligations.DecodeOfEncodeIsTheInstruction : Prop :=
  ∀ i : Instr, i.wellFormed = true → decode (encode i) = .ok i

/-- R66, R67, R69: a command word is rejected exactly when its rsv is not 00 or its opc is a reserved value, and else
it selects the row of its own opc. -/
def Obligations.DecodingSelectsTheRowOrRejects : Prop :=
  ∀ w : Cmd, ((∃ r, decode w = .error r) ↔
    ((opcOf w).toNat ∈ [0x00, 0x05, 0x06, 0x07, 0x0E, 0x0F, 0x13, 0x14, 0x15, 0x16, 0x17, 0x1C, 0x1D, 0x1E, 0x1F] ∨
      rsvOf w ≠ 0#2)) ∧
    (∀ i, decode w = .ok i → opcodeOf i = opcOf w ∧ (targetRead i ≠ none → targetRead i = some (targetOf w)))

/-- R68: a command field or a port that the operation does not read changes neither the result nor the error code. -/
def Obligations.UnreadFieldsAreIgnored : Prop :=
  (∀ (w w' : Cmd) (i : Instr), opcOf w = opcOf w' → rsvOf w = rsvOf w' →
    (targetRead i ≠ none → targetOf w = targetOf w') → ((∃ t b, i = .fsetinf t b) → sgOf w = sgOf w') →
    decode w = .ok i → decode w' = .ok i) ∧
  (∀ (i : Instr) (q q' : Request) (d : NanDraw), (readsA i = true → q.a = q'.a) → (readsB i = true → q.b = q'.b) →
    ((∃ t, i = .fcvtXF64 t) → q.f64 = q'.f64) → respond i q d = respond i q' d)

/-- R71: the five worked encodings, written and read. -/
def Obligations.WorkedEncodings : Prop :=
  encode .fadd = 0x00000001#32 ∧ decode 0x00000001#32 = .ok .fadd ∧
  encode (.fcast ⟨52, 11⟩) = 0x0B003410#32 ∧ decode 0x0B003410#32 = .ok (.fcast ⟨52, 11⟩) ∧
  encode (.fcvtXF64 ⟨23, 8⟩) = 0x08001711#32 ∧ decode 0x08001711#32 = .ok (.fcvtXF64 ⟨23, 8⟩) ∧
  encode (.fsetinf ⟨23, 8⟩ true) = 0x0800173A#32 ∧ decode 0x0800173A#32 = .ok (.fsetinf ⟨23, 8⟩ true) ∧
  encode (.fsetnan ⟨1, 2⟩) = 0x0200011B#32 ∧ decode 0x0200011B#32 = .ok (.fsetnan ⟨1, 2⟩) ∧
  decode 0xFFFFFF21#32 = .ok .fadd

/-! ## Values on ports -/

/-- R61: a value packed on a port is read back whole, and nothing is written above its bits. -/
def Obligations.UnpackOfPackIsTheValue : Prop :=
  ∀ (F : Format) (v : Value), formatValid F = true → v.inFormat F = true →
    unpack F (pack F v) = v ∧ (pack F v).toNat < 2 ^ (1 + F.m + F.e)

/-- R61: port bits above a value's width are ignored on input. -/
def Obligations.HighPortBitsAreIgnored : Prop :=
  ∀ (F : Format) (b c : PortWord), (∀ j, j ≤ F.m + F.e → b.getLsbD j = c.getLsbD j) → unpack F b = unpack F c

/-- R103: the magnitude of every NORMAL value lies in [2^emin, 2^(emax+1)). -/
def Obligations.NormalMagnitudesLieInTheFormatRange : Prop :=
  ∀ (F : Format) (v : Value), formatValid F = true → v.inFormat F = true → classOf F v = .normal →
    (2 : ℚ) ^ emin F.e ≤ mag F v ∧ mag F v < (2 : ℚ) ^ (emax F.e + 1)

/-! ## Round-and-pack -/

/-- R127(a): a NORMAL value's own magnitude rounds to the value. -/
def Obligations.RoundPackKeepsNormalValues : Prop :=
  ∀ (F : Format) (v : Value), formatValid F = true → v.inFormat F = true → classOf F v = .normal →
    roundPack F v.s (mag F v) = v

/-- R127(b): round-and-pack is monotone, in the order of the results' extended values. -/
def Obligations.RoundPackIsMonotone : Prop :=
  ∀ (F : Format) (p q : ℚ), formatValid F = true → 0 < p → p ≤ q →
    Statements.order (ext F (roundPack F false p)) ≤ Statements.order (ext F (roundPack F false q)) ∧
    Statements.order (ext F (roundPack F true q)) ≤ Statements.order (ext F (roundPack F true p))

/-- R121, R123: a NORMAL result is a nearest NORMAL value of the format, and where two are equally near its mantissa
is even. -/
def Obligations.RoundPackIsNearestTiesToEven : Prop :=
  ∀ (F : Format) (s : Bool) (q : ℚ) (v : Value), formatValid F = true → 0 < q →
    v.inFormat F = true → classOf F v = .normal → classOf F (roundPack F s q) = .normal →
    |q - mag F (roundPack F s q)| ≤ |q - mag F v| ∧
    (|q - mag F (roundPack F s q)| = |q - mag F v| → mag F v ≠ mag F (roundPack F s q) →
      (roundPack F s q).f % 2 = 0)

/-- R121, R124, R126: overflow happens exactly from half a unit above the largest NORMAL value on, and gives Inf. -/
def Obligations.RoundPackOverflowThreshold : Prop :=
  ∀ (F : Format) (s : Bool) (q : ℚ), formatValid F = true → 0 < q →
    (roundPack F s q = infV F s ↔ (2 : ℚ) ^ (emax F.e + 1) - (2 : ℚ) ^ (emax F.e - F.m - 1) ≤ q)

/-- R121, R124, R125: a result is flushed to zero exactly when it lies below 2^emin by more than half a unit of the
binade below. -/
def Obligations.RoundPackUnderflowThreshold : Prop :=
  ∀ (F : Format) (s : Bool) (q : ℚ), formatValid F = true → 0 < q →
    (roundPack F s q = zeroV F s ↔ q < (2 : ℚ) ^ emin F.e - (2 : ℚ) ^ (emin F.e - F.m - 2))

/-- R121, R125: round-and-pack answers Zero, Inf or a NORMAL value of the format with the given sign: no NaN and no
non-canonical zero. -/
def Obligations.RoundPackAnswersCanonicalValues : Prop :=
  ∀ (F : Format) (s : Bool) (q : ℚ), formatValid F = true → 0 < q →
    (roundPack F s q).s = s ∧ (roundPack F s q).inFormat F = true ∧
    (roundPack F s q = zeroV F s ∨ roundPack F s q = infV F s ∨ classOf F (roundPack F s q) = .normal)

/-! ## Addition and subtraction -/

/-- R131, R133, R135: FADD of two operands of one valid format completes with the sum rule's value; else its errors are
R170's; nothing else changes. -/
def Obligations.FaddDeliversTheRoundedSum : Prop :=
  Statements.rowIs 0x01#5 (fun _ _ => .fadd) ∧ ∀ s : State, Statements.PairErrors .fadd s ∧
    ∀ F : Format, sameFormat F s.lq → ∃ r, exec .fadd s = .next (Statements.delivered s ⟨0#2, s.lq.a.m, s.lq.a.e, pack F r, 0#64⟩) ∧
      Statements.SumRule F (valueOf s.lq.a) (valueOf s.lq.b) r

/-- R132: FSUB of two operands of one valid format completes with the sum rule's value for B with its sign inverted;
else its errors are R170's; nothing else changes. -/
def Obligations.FsubDeliversTheRoundedDifference : Prop :=
  Statements.rowIs 0x02#5 (fun _ _ => .fsub) ∧ ∀ s : State, Statements.PairErrors .fsub s ∧
    ∀ F : Format, sameFormat F s.lq → ∃ r, exec .fsub s = .next (Statements.delivered s ⟨0#2, s.lq.a.m, s.lq.a.e, pack F r, 0#64⟩) ∧
      Statements.SumRule F (valueOf s.lq.a) ⟨!(valueOf s.lq.b).s, (valueOf s.lq.b).x, (valueOf s.lq.b).f⟩ r

/-- R132 at the ports: FSUB answers what FADD answers when the sign bit of B's port word is inverted, the draw
included. -/
def Obligations.FsubIsFaddWithBSignBitInverted : Prop :=
  ∀ s t u : State, sameFormat (tagOf s.lq.a) s.lq → exec .fsub s = .next t →
    exec .fadd { s with lq := { s.lq with b := { s.lq.b with
      bits := s.lq.b.bits ^^^ BitVec.twoPow portBits (s.lq.b.m.toNat + s.lq.b.e.toNat) } } } = .next u →
    t.resp = u.resp

/-- R136: FADD is commutative bit for bit, but for a pair of opposite infinities. -/
def Obligations.FaddCommutes : Prop :=
  ∀ (q : Request) (d d' : NanDraw),
    ¬(classOf (tagOf q.a) (valueOf q.a) = .inf ∧ classOf (tagOf q.b) (valueOf q.b) = .inf ∧
      (valueOf q.a).s ≠ (valueOf q.b).s) →
    respond .fadd q d = respond .fadd { q with a := q.b, b := q.a } d'

/-- R134: the one case in which "the larger operand re-rounded" would be wrong. A power of two and an operand of the
other sign that is no power of two, exponents exactly m + 2 apart: the sum is the predecessor of the larger operand. -/
def Obligations.FarOperandRoundsToThePredecessor : Prop :=
  ∀ (F : Format) (d a b : Value), formatValid F = true → a.inFormat F = true → b.inFormat F = true →
    classOf F a = .normal → classOf F b = .normal → a.s ≠ b.s → a.f = 0 → b.f ≠ 0 → a.x = b.x + F.m + 2 →
    addValue F d a b = ⟨a.s, a.x - 1, 2 ^ F.m - 1⟩

/-! ## Multiplication and division -/

/-- R140, R141: FMUL of two operands of one valid format completes with the product rule's value; else its errors are
R170's; nothing else changes. -/
def Obligations.FmulDeliversTheRoundedProduct : Prop :=
  Statements.rowIs 0x03#5 (fun _ _ => .fmul) ∧ ∀ s : State, Statements.PairErrors .fmul s ∧
    ∀ F : Format, sameFormat F s.lq → ∃ r, exec .fmul s = .next (Statements.delivered s ⟨0#2, s.lq.a.m, s.lq.a.e, pack F r, 0#64⟩) ∧
      Statements.ProductRule F (valueOf s.lq.a) (valueOf s.lq.b) r

/-- R140, R142, R143: FDIV of two operands of one valid format completes with the quotient rule's value; else its errors
are R170's; nothing else changes. -/
def Obligations.FdivDeliversTheRoundedQuotient : Prop :=
  Statements.rowIs 0x04#5 (fun _ _ => .fdiv) ∧ ∀ s : State, Statements.PairErrors .fdiv s ∧
    ∀ F : Format, sameFormat F s.lq → ∃ r, exec .fdiv s = .next (Statements.delivered s ⟨0#2, s.lq.a.m, s.lq.a.e, pack F r, 0#64⟩) ∧
      Statements.QuotientRule F (valueOf s.lq.a) (valueOf s.lq.b) r

/-- R141: FMUL is commutative bit for bit. -/
def Obligations.FmulCommutes : Prop :=
  ∀ (q : Request) (d d' : NanDraw), respond .fmul q d = respond .fmul { q with a := q.b, b := q.a } d'

/-- R142: FDIV x, x for NORMAL x gives exactly 1.0 with sign 0. -/
def Obligations.FdivOfAValueByItselfIsOne : Prop :=
  ∀ (F : Format) (v : Value), formatValid F = true → v.inFormat F = true → classOf F v = .normal →
    divValue F v v = ⟨false, bias F.e, 0⟩

/-! ## Comparison -/

/-- R150 to R153: FEQ and FNE of two operands of one valid format complete with their predicate's bit; else their errors
are R170's; nothing else changes. -/
def Obligations.EqualityComparesDeliverThePredicate : Prop :=
  Statements.rowIs 0x08#5 (fun _ _ => .feq) ∧ Statements.rowIs 0x09#5 (fun _ _ => .fne) ∧
  ∀ s : State, Statements.PairErrors .feq s ∧ Statements.PairErrors .fne s ∧ ∀ F : Format, sameFormat F s.lq →
    (∃ p : Bool, exec .feq s = .next (Statements.delivered s ⟨0#2, 0#16, 0#8, 0#portBits, if p then 1#64 else 0#64⟩) ∧
      (p = true ↔ classOf F (valueOf s.lq.a) ≠ .nan ∧ classOf F (valueOf s.lq.b) ≠ .nan ∧
        Statements.order (ext F (valueOf s.lq.a)) = Statements.order (ext F (valueOf s.lq.b)))) ∧
    (∃ p : Bool, exec .fne s = .next (Statements.delivered s ⟨0#2, 0#16, 0#8, 0#portBits, if p then 1#64 else 0#64⟩) ∧
      (p = true ↔ classOf F (valueOf s.lq.a) = .nan ∨ classOf F (valueOf s.lq.b) = .nan ∨
        Statements.order (ext F (valueOf s.lq.a)) ≠ Statements.order (ext F (valueOf s.lq.b))))

/-- R150, R151, R154 to R157: FLT, FLE, FGT and FGE of two operands of one valid format complete with their predicate's
bit, in the order of the extended rationals; else their errors are R170's; nothing else changes. -/
def Obligations.OrderComparesDeliverThePredicate : Prop :=
  Statements.rowIs 0x0A#5 (fun _ _ => .flt) ∧ Statements.rowIs 0x0B#5 (fun _ _ => .fle) ∧
  Statements.rowIs 0x0C#5 (fun _ _ => .fgt) ∧ Statements.rowIs 0x0D#5 (fun _ _ => .fge) ∧
  ∀ s : State, Statements.PairErrors .flt s ∧ Statements.PairErrors .fle s ∧ Statements.PairErrors .fgt s ∧
  Statements.PairErrors .fge s ∧ ∀ (F : Format) (x y : WithBot (WithTop ℚ)), sameFormat F s.lq →
    x = Statements.order (ext F (valueOf s.lq.a)) → y = Statements.order (ext F (valueOf s.lq.b)) →
    (∃ p : Bool, exec .flt s = .next (Statements.delivered s ⟨0#2, 0#16, 0#8, 0#portBits, if p then 1#64 else 0#64⟩) ∧
      (p = true ↔ classOf F (valueOf s.lq.a) ≠ .nan ∧ classOf F (valueOf s.lq.b) ≠ .nan ∧ x < y)) ∧
    (∃ p : Bool, exec .fle s = .next (Statements.delivered s ⟨0#2, 0#16, 0#8, 0#portBits, if p then 1#64 else 0#64⟩) ∧
      (p = true ↔ classOf F (valueOf s.lq.a) ≠ .nan ∧ classOf F (valueOf s.lq.b) ≠ .nan ∧ x ≤ y)) ∧
    (∃ p : Bool, exec .fgt s = .next (Statements.delivered s ⟨0#2, 0#16, 0#8, 0#portBits, if p then 1#64 else 0#64⟩) ∧
      (p = true ↔ classOf F (valueOf s.lq.a) ≠ .nan ∧ classOf F (valueOf s.lq.b) ≠ .nan ∧ y < x)) ∧
    (∃ p : Bool, exec .fge s = .next (Statements.delivered s ⟨0#2, 0#16, 0#8, 0#portBits, if p then 1#64 else 0#64⟩) ∧
      (p = true ↔ classOf F (valueOf s.lq.a) ≠ .nan ∧ classOf F (valueOf s.lq.b) ≠ .nan ∧ y ≤ x))

/-- R158: without a NaN exactly one of FLT, FEQ, FGT holds, FLE is FLT or FEQ, FGE is FGT or FEQ; with a NaN only FNE
holds; FEQ and FNE are symmetric. -/
def Obligations.ComparePredicatesObeyTheirLaws : Prop :=
  ∀ (F : Format) (a b : Value),
    (classOf F a ≠ .nan → classOf F b ≠ .nan →
      (fltHolds F a b = true ∧ feqHolds F a b = false ∧ fgtHolds F a b = false ∨
        fltHolds F a b = false ∧ feqHolds F a b = true ∧ fgtHolds F a b = false ∨
        fltHolds F a b = false ∧ feqHolds F a b = false ∧ fgtHolds F a b = true) ∧
      fleHolds F a b = (fltHolds F a b || feqHolds F a b) ∧ fgeHolds F a b = (fgtHolds F a b || feqHolds F a b)) ∧
    (classOf F a = .nan ∨ classOf F b = .nan →
      feqHolds F a b = false ∧ fltHolds F a b = false ∧ fleHolds F a b = false ∧ fgtHolds F a b = false ∧
        fgeHolds F a b = false ∧ fneHolds F a b = true) ∧
    feqHolds F a b = feqHolds F b a ∧ fneHolds F a b = fneHolds F b a

/-- R151, R152: on canonical values that are no NaN the comparator's order is the order of the fields: sign first,
then exponent and mantissa as one unsigned number, inverted for negative values; equality is equality of the bits but
for the two zeros. -/
def Obligations.CompareOrderIsTheFieldOrder : Prop :=
  ∀ (F : Format) (a b : Value), formatValid F = true → a.inFormat F = true → b.inFormat F = true →
    classOf F a ≠ .nan → classOf F b ≠ .nan → (a.x = 0 → a.f = 0) → (b.x = 0 → b.f = 0) →
    (feqHolds F a b = true ↔ a = b ∨ (a.x = 0 ∧ b.x = 0)) ∧
    (a.s = false → b.s = false → (fltHolds F a b = true ↔ a.x * 2 ^ F.m + a.f < b.x * 2 ^ F.m + b.f)) ∧
    (a.s = true → b.s = true → (fltHolds F a b = true ↔ b.x * 2 ^ F.m + b.f < a.x * 2 ^ F.m + a.f)) ∧
    (a.s = true → b.s = false → (fltHolds F a b = true ↔ ¬(a.x = 0 ∧ b.x = 0))) ∧
    (a.s = false → b.s = true → fltHolds F a b = false)

/-! ## Casts and binary64 -/

/-- R160, R161: FCAST between two valid formats completes with the cast rule's value in the target format; else it
reports InvalidPrecision; B is not read; nothing else changes. -/
def Obligations.FcastDeliversTheRoundedValue : Prop :=
  Statements.rowIs 0x10#5 (fun _ t => .fcast t) ∧ ∀ (s : State) (T : Format),
    Statements.OperandErrors (.fcast T) s ∧ Statements.TargetErrors (.fcast T) T s ∧
    (formatValid (tagOf s.lq.a) = true → formatValid T = true → ∃ r, exec (.fcast T) s =
        .next (Statements.delivered s ⟨0#2, BitVec.ofNat 16 T.m, BitVec.ofNat 8 T.e, pack T r, 0#64⟩) ∧
      Statements.CastRule (tagOf s.lq.a) T (valueOf s.lq.a) r)

/-- R165 at the ports: FCAST to the operand's own valid format returns its bits unchanged, a NaN's payload and a
non-canonical zero's mantissa included, with the ignored port bits 0; where that format is not valid it still reports
InvalidPrecision. -/
def Obligations.FcastToTheSameFormatKeepsEveryBit : Prop :=
  ∀ s : State, (formatValid (tagOf s.lq.a) = false →
      exec (.fcast (tagOf s.lq.a)) s = .next (Statements.delivered s (Statements.errorOf 1#2))) ∧
    (formatValid (tagOf s.lq.a) = true →
      ∃ t, exec (.fcast (tagOf s.lq.a)) s = .next t ∧ t.resp.rErr = 0#2 ∧ t.resp.rM = s.lq.a.m ∧ t.resp.rE = s.lq.a.e ∧
        t.resp.rBits.toNat = s.lq.a.bits.toNat % 2 ^ (1 + s.lq.a.m.toNat + s.lq.a.e.toNat))

/-- R163: widening a NORMAL value is exact: the mantissa is padded with zeros and the exponent re-biased. -/
def Obligations.WideningCastIsExact : Prop :=
  ∀ (F T : Format) (v : Value), formatValid F = true → formatValid T = true → F.m ≤ T.m → F.e ≤ T.e →
    v.inFormat F = true → classOf F v = .normal →
    (castValue F T v).s = v.s ∧ ((castValue F T v).x : Int) = (v.x : Int) - bias F.e + bias T.e ∧
      (castValue F T v).f = v.f * 2 ^ (T.m - F.m) ∧ classOf T (castValue F T v) = .normal

/-- R164: widen then narrow is the identity on every canonical value that is no NaN; a non-canonical zero comes back as
the zero of its sign and a NaN as the canonical NaN of its sign, unless both casts are the identity. -/
def Obligations.WidenThenNarrowIsTheIdentity : Prop :=
  ∀ (F T : Format) (v : Value), formatValid F = true → formatValid T = true → F.m ≤ T.m → F.e ≤ T.e →
    v.inFormat F = true →
    (classOf F v ≠ .nan → (v.x = 0 → v.f = 0) → castValue T F (castValue F T v) = v) ∧
    (T ≠ F → classOf F v = .zero → castValue T F (castValue F T v) = zeroV F v.s) ∧
    (T ≠ F → classOf F v = .nan → castValue T F (castValue F T v) = qNaN F v.s)

/-- R162: FCVT.F64.X of an operand of a valid format completes with the cast to (52, 11) as a binary64 word, sign in bit
63, exponent in bits 62..52, fraction in bits 51..0; else it reports InvalidPrecision; nothing else changes. -/
def Obligations.FcvtF64XDeliversTheBinary64Word : Prop :=
  Statements.rowIs 0x12#5 (fun _ _ => .fcvtF64X) ∧ ∀ s : State, Statements.OperandErrors .fcvtF64X s ∧
    (formatValid (tagOf s.lq.a) = true → ∃ (w : BitVec 64) (r : Value), exec .fcvtF64X s = .next (Statements.delivered s ⟨0#2, 0#16, 0#8, 0#portBits, w⟩) ∧
      Statements.CastRule (tagOf s.lq.a) ⟨52, 11⟩ (valueOf s.lq.a) r ∧
      w.getLsbD 63 = r.s ∧ (w.extractLsb' 52 11).toNat = r.x ∧ (w.extractLsb' 0 52).toNat = r.f)

/-- R110, R111: FCVT.X.F64 to a valid target completes by the class of the binary64 word, subnormal words at their own
value; else it reports InvalidPrecision; A and B are not read; nothing else changes. -/
def Obligations.FcvtXF64DeliversTheConvertedWord : Prop :=
  Statements.rowIs 0x11#5 (fun _ t => .fcvtXF64 t) ∧ ∀ (s : State) (T : Format),
    Statements.TargetErrors (.fcvtXF64 T) T s ∧
    ∀ (x f : Nat) (n : Bool), formatValid T = true → n = s.lq.f64.getLsbD 63 →
    x = (s.lq.f64.extractLsb' 52 11).toNat → f = (s.lq.f64.extractLsb' 0 52).toNat →
    ∃ r, exec (.fcvtXF64 T) s =
        .next (Statements.delivered s ⟨0#2, BitVec.ofNat 16 T.m, BitVec.ofNat 8 T.e, pack T r, 0#64⟩) ∧
      (x = 2047 → f ≠ 0 → r = qNaN T n) ∧ (x = 2047 → f = 0 → r = infV T n) ∧ (x = 0 → f = 0 → r = zeroV T n) ∧
      (x = 0 → f ≠ 0 → r = roundPack T n (f * (2 : ℚ) ^ (-1074 : Int))) ∧
      (x ≠ 0 → x ≠ 2047 → r = roundPack T n ((2 ^ 52 + f) * (2 : ℚ) ^ ((x : Int) - 1075)))

/-- R111, R162, conflict C4: at (52, 11) every binary64 word that is neither a NaN nor a subnormal comes back from
FCVT.X.F64 with the same 64 bits, and FCVT.F64.X of that result is the word again. -/
def Obligations.Binary64RoundTripIsExact : Prop :=
  ∀ (w : BitVec 64), ¬((w.extractLsb' 52 11).toNat = 2047 ∧ (w.extractLsb' 0 52).toNat ≠ 0) →
    ¬((w.extractLsb' 52 11).toNat = 0 ∧ (w.extractLsb' 0 52).toNat ≠ 0) →
    (pack ⟨52, 11⟩ (fromF64Value ⟨52, 11⟩ w)).toNat = w.toNat ∧
    packWord64 (castValue ⟨52, 11⟩ ⟨52, 11⟩ (unpack ⟨52, 11⟩ (pack ⟨52, 11⟩ (fromF64Value ⟨52, 11⟩ w)))) = w

/-! ## Special values -/

/-- R112: FCLASS of an operand of a valid format completes with the four class bits, the others 0; else it reports
InvalidPrecision; B is not read; nothing else changes. -/
def Obligations.FclassDeliversTheClassBits : Prop :=
  Statements.rowIs 0x18#5 (fun _ _ => .fclass) ∧ ∀ s : State, Statements.OperandErrors .fclass s ∧
    (formatValid (tagOf s.lq.a) = true → ∃ w : BitVec 64, exec .fclass s = .next (Statements.delivered s ⟨0#2, 0#16, 0#8, 0#portBits, w⟩) ∧
      (w.getLsbD 0 = true ↔ classOf (tagOf s.lq.a) (valueOf s.lq.a) = .zero) ∧
      (w.getLsbD 1 = true ↔ classOf (tagOf s.lq.a) (valueOf s.lq.a) = .inf) ∧
      (w.getLsbD 2 = true ↔ classOf (tagOf s.lq.a) (valueOf s.lq.a) = .nan) ∧
      (w.getLsbD 3 = true ↔ s.lq.a.bits.getLsbD (s.lq.a.m.toNat + s.lq.a.e.toNat) = false) ∧
      w.toNat < 16)

/-- R113, R114, R115, R104: the three setters complete with the bits of +0, of the infinity of the sign sg and of the
canonical NaN of a valid target; else they report InvalidPrecision; A and B are not read; nothing else changes. -/
def Obligations.SettersDeliverTheSpecialValues : Prop :=
  Statements.rowIs 0x19#5 (fun _ t => .fsetzero t) ∧ Statements.rowIs 0x1A#5 (fun g t => .fsetinf t g) ∧
  Statements.rowIs 0x1B#5 (fun _ t => .fsetnan t) ∧ ∀ (s : State) (T : Format) (sg : Bool),
    Statements.TargetErrors (.fsetzero T) T s ∧ Statements.TargetErrors (.fsetinf T sg) T s ∧
    Statements.TargetErrors (.fsetnan T) T s ∧ (formatValid T = true →
    exec (.fsetzero T) s =
      .next (Statements.delivered s ⟨0#2, BitVec.ofNat 16 T.m, BitVec.ofNat 8 T.e, 0#portBits, 0#64⟩) ∧
    (∃ b : PortWord, exec (.fsetinf T sg) s =
        .next (Statements.delivered s ⟨0#2, BitVec.ofNat 16 T.m, BitVec.ofNat 8 T.e, b, 0#64⟩) ∧
      b.toNat = (if sg then 2 ^ (T.m + T.e) else 0) + (2 ^ T.e - 1) * 2 ^ T.m) ∧
    (∃ b : PortWord, exec (.fsetnan T) s =
        .next (Statements.delivered s ⟨0#2, BitVec.ofNat 16 T.m, BitVec.ofNat 8 T.e, b, 0#64⟩) ∧
      b.toNat = (2 ^ T.e - 1) * 2 ^ T.m + 2 ^ (T.m - 1)))

/-- R102, R125: the block never produces a non-canonical zero, except by passing one through an identity cast. -/
def Obligations.NoNonCanonicalZeroIsProduced : Prop :=
  ∀ (i : Instr) (s t : State), exec i s = .next t → i ≠ .fcast (tagOf s.lq.a) → t.resp.rM ≠ 0#16 →
    (unpack ⟨t.resp.rM.toNat, t.resp.rE.toNat⟩ t.resp.rBits).x = 0 →
    (unpack ⟨t.resp.rM.toNat, t.resp.rE.toNat⟩ t.resp.rBits).f = 0

/-! ## Errors -/

/-- R170, R175, R178: an operation that reads an invalid format completes with InvalidPrecision, before any mismatch is
looked at, all value registers 0, and changes nothing else. -/
def Obligations.InvalidFormatsReportCodeOne : Prop :=
  ∀ (i : Instr) (s : State), readsInvalidFormat i s.lq →
    exec i s = .next (Statements.delivered s (Statements.errorOf 1#2))

/-- R177, R178: an operation that reads two valid formats that differ completes with PrecisionMismatch, all value
registers 0, and changes nothing else. -/
def Obligations.DifferentFormatsReportCodeTwo : Prop :=
  ∀ (i : Instr) (s : State), ¬readsInvalidFormat i s.lq → readsMismatch i s.lq →
    exec i s = .next (Statements.delivered s (Statements.errorOf 2#2))

/-- R173, R176: an operation whose formats are valid and equal succeeds on every operand value, and the registers its
rule does not write are 0. -/
def Obligations.NoOperandValueIsAnError : Prop :=
  ∀ (i : Instr) (s : State), ¬readsInvalidFormat i s.lq → ¬readsMismatch i s.lq →
    ∃ r, exec i s = .next (Statements.delivered s r) ∧ r.rErr = 0#2 ∧
      (writesWord i = true → r.rM = 0#16 ∧ r.rE = 0#8 ∧ r.rBits = 0#portBits) ∧ (writesWord i = false → r.rWord = 0#64)

/-- R174: an error is all or nothing: a transaction that completes with a nonzero code, whatever its command, writes 0
to the four value registers, completes through the same handshake and keeps the latched request. -/
def Obligations.ErrorsCarryNoValue : Prop :=
  ∀ s : State, completing s → ∃ t, step s = .next t ∧ t.busy = false ∧ t.done = true ∧ t.lq = s.lq ∧
    (t.resp.rErr ≠ 0#2 → t.resp.rM = 0#16 ∧ t.resp.rE = 0#8 ∧ t.resp.rBits = 0#portBits ∧ t.resp.rWord = 0#64)

/-- R44, R176, R192: every operation completes in every state, and its frame: only the response registers, the
handshake and the model's edges left and draws (log entries 4 and 6) change. -/
def Obligations.EveryOperationCompletesAndKeepsTheRest : Prop :=
  ∀ (i : Instr) (s : State), ∃ t, exec i s = .next t ∧ t.pins = s.pins ∧ t.drive = s.drive ∧ t.lq = s.lq ∧
    t.busy = false ∧ t.done = true ∧ t.edgesLeft = 0 ∧ t.draws = s.draws + 1
end

