-- ==== Sys2Proof/Laws/Decode.lean ====
section
/-! SUPPORT. The fields of a command word, read back one by one (spec/30_encoding.md R63). -/

namespace Sys2Proof

/-- The fields of a command word, read back (R63). -/
theorem opcOf_cmdWord (o : BitVec 5) (sg : Bool) (t : Format) : opcOf (cmdWord o sg t) = o := by
  apply BitVec.eq_of_getLsbD_eq
  intro j hj
  simp only [opcOf, cmdWord, BitVec.getLsbD_extractLsb', BitVec.getLsbD_append]
  simp [hj, show j < 24 by omega, show j < 8 by omega, show j < 6 by omega]

theorem sgOf_cmdWord (o : BitVec 5) (sg : Bool) (t : Format) : sgOf (cmdWord o sg t) = sg := by
  simp only [sgOf, cmdWord, BitVec.getLsbD_append]
  simp

theorem rsvOf_cmdWord (o : BitVec 5) (sg : Bool) (t : Format) : rsvOf (cmdWord o sg t) = 0#2 := by
  apply BitVec.eq_of_getLsbD_eq
  intro j hj
  simp only [rsvOf, cmdWord, BitVec.getLsbD_extractLsb', BitVec.getLsbD_append]
  simp [hj, show 6 + j < 24 by omega, show ¬8 ≤ 6 + j by omega]

theorem targetOf_cmdWord (o : BitVec 5) (sg : Bool) {t : Format} (h : t.fitsFields = true) :
    targetOf (cmdWord o sg t) = t := by
  obtain ⟨m, e⟩ := t
  simp only [Format.fitsFields, Bool.and_eq_true, decide_eq_true_eq] at h
  have h1 : (cmdWord o sg ⟨m, e⟩).extractLsb' 8 16 = BitVec.ofNat 16 m := by
    apply BitVec.eq_of_getLsbD_eq
    intro j hj
    simp only [cmdWord, BitVec.getLsbD_extractLsb', BitVec.getLsbD_append]
    simp [hj, show ¬24 ≤ 8 + j by omega]
  have h2 : (cmdWord o sg ⟨m, e⟩).extractLsb' 24 8 = BitVec.ofNat 8 e := by
    apply BitVec.eq_of_getLsbD_eq
    intro j hj
    simp only [cmdWord, BitVec.getLsbD_extractLsb', BitVec.getLsbD_append]
    simp [hj]
  rw [targetOf, h1, h2, BitVec.toNat_ofNat, BitVec.toNat_ofNat, Nat.mod_eq_of_lt h.1, Nat.mod_eq_of_lt h.2]

end Sys2Proof
end

