-- ==== Sys2Proof/Laws/Value.lean ====
section
/-! SUPPORT. Valid formats, classes and the special-value constructors (spec/40_representation.md R101 to R105). -/

namespace Sys2Proof.Machine

/-- What a valid format satisfies (R23); its widths fit the tag ports and its values fit a value port (R5, R64). -/
theorem formatValid_iff {F : Format} :
    formatValid F = true ↔ 1 ≤ F.m ∧ 2 ≤ F.e ∧ F.m ≤ Config.mMax ∧ F.e ≤ Config.eMax := by
  simp [formatValid, and_assoc]

theorem mMax_le : Config.mMax ≤ 65535 := by
  have := Config.mMaxAbove52.isLt; unfold Config.mMax; omega

theorem le_mMax : 52 ≤ Config.mMax := by unfold Config.mMax; omega

theorem eMax_le : Config.eMax ≤ 255 := by
  have := Config.eMaxAbove11.isLt; unfold Config.eMax; omega

theorem le_eMax : 11 ≤ Config.eMax := by unfold Config.eMax; omega

/-- A valid format's bounds, as numbers. -/
theorem formatValid_bounds {F : Format} (h : formatValid F = true) :
    1 ≤ F.m ∧ 2 ≤ F.e ∧ F.m ≤ 65535 ∧ F.e ≤ 255 ∧ 1 + F.m + F.e ≤ Config.portWidth := by
  obtain ⟨h1, h2, h3, h4⟩ := formatValid_iff.mp h
  have := mMax_le
  have := eMax_le
  unfold Config.portWidth
  omega

/-- The largest port is the container (log entry 1). -/
theorem portWidth_le : Config.portWidth ≤ portBits := by
  have := mMax_le
  have := eMax_le
  unfold Config.portWidth portBits
  omega

/-- The binary64 format is valid on every block (R5: `M_MAX >= 52`, `E_MAX >= 11`). -/
theorem f64Format_valid : formatValid ⟨52, 11⟩ = true :=
  formatValid_iff.mpr ⟨by decide, by decide, le_mMax, le_eMax⟩

/-- `inFormat` as bounds. -/
theorem inFormat_iff {F : Format} {v : Value} : v.inFormat F = true ↔ v.x < 2 ^ F.e ∧ v.f < 2 ^ F.m := by
  simp [Value.inFormat]

/-- `2^e` in terms of the bias, for a width of at least 2 (R101). -/
theorem two_pow_eq_bias {e : Nat} (he : 2 ≤ e) : 2 ^ e = 2 * bias e + 2 ∧ 1 ≤ bias e := by
  obtain ⟨k, rfl⟩ : ∃ k, e = k + 2 := ⟨e - 2, by omega⟩
  have : 0 < 2 ^ k := by positivity
  simp only [bias, show k + 2 - 1 = k + 1 by omega, pow_succ]
  omega

/-- The largest NORMAL exponent is twice the bias (R101). -/
theorem xMax_eq_bias {e : Nat} (he : 2 ≤ e) : xMax e = 2 * bias e := by
  have := two_pow_eq_bias he; unfold xMax; omega

/-- `1^e` is one more than the largest NORMAL exponent (R101). -/
theorem onesExp_eq_bias {e : Nat} (he : 2 ≤ e) : onesExp e = 2 * bias e + 1 := by
  have := two_pow_eq_bias he; unfold onesExp; omega

/-- `emax = bias` (R101). -/
theorem emax_eq_bias {e : Nat} (he : 2 ≤ e) : emax e = bias e := by
  unfold emax; rw [xMax_eq_bias he]; push_cast; omega

/-- The four classes as conditions on the fields (R102). -/
theorem classOf_zero_iff {F : Format} {v : Value} : classOf F v = .zero ↔ v.x = 0 := by
  unfold classOf; split_ifs <;> simp_all

theorem classOf_inf_iff {F : Format} {v : Value} : classOf F v = .inf ↔ v.x ≠ 0 ∧ v.x = onesExp F.e ∧ v.f = 0 := by
  unfold classOf; split_ifs <;> simp_all

theorem classOf_nan_iff {F : Format} {v : Value} : classOf F v = .nan ↔ v.x ≠ 0 ∧ v.x = onesExp F.e ∧ v.f ≠ 0 := by
  unfold classOf; split_ifs <;> simp_all

theorem classOf_normal_iff {F : Format} {v : Value} : classOf F v = .normal ↔ v.x ≠ 0 ∧ v.x ≠ onesExp F.e := by
  unfold classOf; split_ifs <;> simp_all

/-- The fields of a NORMAL value of a format, as bounds (R102). -/
theorem normal_bounds {F : Format} {v : Value} (he : 2 ≤ F.e) (hf : v.inFormat F = true)
    (hc : classOf F v = .normal) : 1 ≤ v.x ∧ v.x ≤ 2 * bias F.e ∧ v.f < 2 ^ F.m := by
  have h1 := inFormat_iff.mp hf
  have h2 := classOf_normal_iff.mp hc
  have h3 := onesExp_eq_bias he
  have h4 := two_pow_eq_bias he
  omega

theorem classOf_zeroV (F : Format) (s : Bool) : classOf F (zeroV F s) = .zero := by simp [classOf, zeroV]

theorem classOf_infV {F : Format} (he : 2 ≤ F.e) (s : Bool) : classOf F (infV F s) = .inf := by
  have := onesExp_eq_bias he
  rw [classOf_inf_iff]; simp [infV]; omega

theorem classOf_qNaN {F : Format} (he : 2 ≤ F.e) (s : Bool) : classOf F (qNaN F s) = .nan := by
  have := onesExp_eq_bias he
  have : 0 < 2 ^ (F.m - 1) := by positivity
  rw [classOf_nan_iff]; simp [qNaN]; omega

theorem classOf_drawnNaN {F : Format} (he : 2 ≤ F.e) (d : NanDraw) : classOf F (drawnNaN F d) = .nan := by
  have := onesExp_eq_bias he
  rw [classOf_nan_iff]; simp [drawnNaN]; omega

theorem onesExp_lt (e : Nat) : onesExp e < 2 ^ e := by
  have : 0 < 2 ^ e := by positivity
  unfold onesExp; omega

theorem inFormat_zeroV (F : Format) (s : Bool) : (zeroV F s).inFormat F = true := by simp [inFormat_iff, zeroV]

theorem inFormat_infV (F : Format) (s : Bool) : (infV F s).inFormat F = true := by
  simp [inFormat_iff, infV, onesExp_lt]

theorem inFormat_qNaN {F : Format} (hm : 1 ≤ F.m) (s : Bool) : (qNaN F s).inFormat F = true := by
  simp only [inFormat_iff, qNaN, onesExp_lt, true_and]
  exact Nat.pow_lt_pow_right (by decide) (by omega)

theorem inFormat_drawnNaN {F : Format} (hm : 1 ≤ F.m) (d : NanDraw) : (drawnNaN F d).inFormat F = true := by
  have h2 : 2 ≤ 2 ^ F.m := by
    calc 2 = 2 ^ 1 := rfl
      _ ≤ 2 ^ F.m := Nat.pow_le_pow_right (by decide) hm
  have := Nat.mod_lt d.payload (show 0 < 2 ^ F.m - 1 by omega)
  simp only [inFormat_iff, drawnNaN, onesExp_lt, true_and]
  omega

theorem inFormat_negate (F : Format) (v : Value) : (negate v).inFormat F = v.inFormat F := rfl

@[simp] theorem classOf_negate (F : Format) (v : Value) : classOf F (negate v) = classOf F v := rfl

/-- A magnitude is positive (R103). -/
theorem mag_pos (F : Format) (v : Value) : 0 < mag F v := by
  have : (0 : ℚ) < (significand F v : ℚ) := by
    have : 0 < significand F v := by unfold significand; positivity
    exact_mod_cast this
  unfold mag
  positivity

end Sys2Proof.Machine
end

