-- ==== Sys2Proof/Laws/Operands.lean ====
section
/-! SUPPORT. Packing and unpacking as arithmetic on numbers (spec/30_encoding.md R61). -/

namespace Sys2Proof.Machine

@[simp] theorem unpack_s (F : Format) (b : PortWord) : (unpack F b).s = b.getLsbD (F.m + F.e) := rfl

/-- The exponent field of a port word, as a number. -/
theorem unpack_x (F : Format) (b : PortWord) : (unpack F b).x = b.toNat / 2 ^ F.m % 2 ^ F.e := by
  simp [unpack, BitVec.extractLsb'_toNat, Nat.shiftRight_eq_div_pow]

/-- The mantissa field of a port word, as a number. -/
theorem unpack_f (F : Format) (b : PortWord) : (unpack F b).f = b.toNat % 2 ^ F.m := by
  simp [unpack, BitVec.extractLsb'_toNat]

/-- Whatever is on a port reads as a value of the format (R62). -/
theorem inFormat_unpack (F : Format) (b : PortWord) : (unpack F b).inFormat F = true := by
  rw [inFormat_iff, unpack_x, unpack_f]
  exact ⟨Nat.mod_lt _ (by positivity), Nat.mod_lt _ (by positivity)⟩

theorem inFormat_valueOf (p : Operand) : (valueOf p).inFormat (tagOf p) = true := inFormat_unpack _ _

/-- A packed value has no bit above its width. -/
theorem packNat_lt {F : Format} {v : Value} (h : v.inFormat F = true) : packNat F v < 2 ^ (1 + F.m + F.e) := by
  obtain ⟨hx, hf⟩ := inFormat_iff.mp h
  have hs : v.s.toNat ≤ 1 := Bool.toNat_le v.s
  have e1 : 2 ^ (1 + F.m + F.e) = 2 * (2 ^ F.m * 2 ^ F.e) := by rw [pow_add, pow_add]; ring
  have e2 : 2 ^ (F.m + F.e) = 2 ^ F.m * 2 ^ F.e := pow_add ..
  have hx' : v.x * 2 ^ F.m + 2 ^ F.m ≤ 2 ^ F.m * 2 ^ F.e := by
    calc v.x * 2 ^ F.m + 2 ^ F.m = 2 ^ F.m * (v.x + 1) := by ring
      _ ≤ 2 ^ F.m * 2 ^ F.e := Nat.mul_le_mul_left _ hx
  have hs' : v.s.toNat * (2 ^ F.m * 2 ^ F.e) ≤ 1 * (2 ^ F.m * 2 ^ F.e) := Nat.mul_le_mul_right _ hs
  unfold packNat
  rw [e1, e2]
  omega

/-- The number on the port is the packed number. -/
theorem pack_toNat {F : Format} {v : Value} (hF : formatValid F = true) (h : v.inFormat F = true) :
    (pack F v).toNat = packNat F v := by
  have h1 := packNat_lt h
  have h2 := (formatValid_bounds hF).2.2.2.2
  unfold pack
  rw [BitVec.toNat_ofNat]
  exact Nat.mod_eq_of_lt (lt_of_lt_of_le h1 (Nat.pow_le_pow_right (by decide) (h2.trans portWidth_le)))

/-- A tag's widths fit the tag ports, so a valid tag is written back as it was read. -/
theorem ofNat_tagOf_m (p : Operand) : BitVec.ofNat 16 (tagOf p).m = p.m := by simp [tagOf]

theorem ofNat_tagOf_e (p : Operand) : BitVec.ofNat 8 (tagOf p).e = p.e := by simp [tagOf]

end Sys2Proof.Machine
end

