-- ==== Sys2Proof/Laws/State.lean ====
section
/-! SUPPORT. One lemma per field per update of State: what each shared operation leaves and what it writes. -/

namespace Sys2Proof.Machine

/-! `complete` -/

@[simp] theorem complete_pins (r : Response) (s : State) : (complete r s).pins = s.pins := rfl
@[simp] theorem complete_drive (r : Response) (s : State) : (complete r s).drive = s.drive := rfl
@[simp] theorem complete_lq (r : Response) (s : State) : (complete r s).lq = s.lq := rfl
@[simp] theorem complete_resp (r : Response) (s : State) : (complete r s).resp = r := rfl
@[simp] theorem complete_busy (r : Response) (s : State) : (complete r s).busy = false := rfl
@[simp] theorem complete_done (r : Response) (s : State) : (complete r s).done = true := rfl
@[simp] theorem complete_edgesLeft (r : Response) (s : State) : (complete r s).edgesLeft = 0 := rfl
@[simp] theorem complete_draws (r : Response) (s : State) : (complete r s).draws = s.draws + 1 := rfl

/-! `hostDrives`: only the pins and the rest of the drive change. -/

@[simp] theorem hostDrives_lq (s : State) : (hostDrives s).lq = s.lq := by unfold hostDrives; split <;> rfl
@[simp] theorem hostDrives_resp (s : State) : (hostDrives s).resp = s.resp := by unfold hostDrives; split <;> rfl
@[simp] theorem hostDrives_busy (s : State) : (hostDrives s).busy = s.busy := by unfold hostDrives; split <;> rfl
@[simp] theorem hostDrives_done (s : State) : (hostDrives s).done = s.done := by unfold hostDrives; split <;> rfl
@[simp] theorem hostDrives_edgesLeft (s : State) : (hostDrives s).edgesLeft = s.edgesLeft := by
  unfold hostDrives; split <;> rfl
@[simp] theorem hostDrives_draws (s : State) : (hostDrives s).draws = s.draws := by
  unfold hostDrives; split <;> rfl

/-- The next pins are the present ones or the first of the host's drive. -/
theorem hostDrives_pins (s : State) : (hostDrives s).pins = s.pins ∨ (hostDrives s).pins ∈ s.drive := by
  unfold hostDrives; split <;> simp_all

/-- What is left of the drive was in the drive. -/
theorem mem_hostDrives_drive {s : State} {p : Pins} (h : p ∈ (hostDrives s).drive) : p ∈ s.drive := by
  unfold hostDrives at h; split at h <;> simp_all

/-- The draw of the coming completion does not depend on the pins. -/
@[simp] theorem currentDraw_hostDrives (s : State) : currentDraw (hostDrives s) = currentDraw s := by
  simp [currentDraw]

/-! `resetBlock` -/

@[simp] theorem resetBlock_pins (s : State) : (resetBlock s).pins = s.pins := rfl
@[simp] theorem resetBlock_drive (s : State) : (resetBlock s).drive = s.drive := rfl
@[simp] theorem resetBlock_lq (s : State) : (resetBlock s).lq = zeroRequest := rfl
@[simp] theorem resetBlock_resp (s : State) : (resetBlock s).resp = zeroResponse := rfl
@[simp] theorem resetBlock_busy (s : State) : (resetBlock s).busy = false := rfl
@[simp] theorem resetBlock_done (s : State) : (resetBlock s).done = false := rfl
@[simp] theorem resetBlock_edgesLeft (s : State) : (resetBlock s).edgesLeft = 0 := rfl
@[simp] theorem resetBlock_draws (s : State) : (resetBlock s).draws = s.draws := rfl

/-! `accept` -/

@[simp] theorem accept_pins (q : Request) (s : State) : (accept q s).pins = s.pins := rfl
@[simp] theorem accept_drive (q : Request) (s : State) : (accept q s).drive = s.drive := rfl
@[simp] theorem accept_lq (q : Request) (s : State) : (accept q s).lq = q := rfl
@[simp] theorem accept_resp (q : Request) (s : State) : (accept q s).resp = s.resp := rfl
@[simp] theorem accept_busy (q : Request) (s : State) : (accept q s).busy = true := rfl
@[simp] theorem accept_done (q : Request) (s : State) : (accept q s).done = false := rfl
@[simp] theorem accept_edgesLeft (q : Request) (s : State) : (accept q s).edgesLeft = Config.latency q := rfl
@[simp] theorem accept_draws (q : Request) (s : State) : (accept q s).draws = s.draws := rfl

/-! `awaitEdge` -/

@[simp] theorem awaitEdge_pins (s : State) : (awaitEdge s).pins = s.pins := rfl
@[simp] theorem awaitEdge_drive (s : State) : (awaitEdge s).drive = s.drive := rfl
@[simp] theorem awaitEdge_lq (s : State) : (awaitEdge s).lq = s.lq := rfl
@[simp] theorem awaitEdge_resp (s : State) : (awaitEdge s).resp = s.resp := rfl
@[simp] theorem awaitEdge_busy (s : State) : (awaitEdge s).busy = s.busy := rfl
@[simp] theorem awaitEdge_done (s : State) : (awaitEdge s).done = s.done := rfl
@[simp] theorem awaitEdge_edgesLeft (s : State) : (awaitEdge s).edgesLeft = s.edgesLeft - 1 := rfl
@[simp] theorem awaitEdge_draws (s : State) : (awaitEdge s).draws = s.draws := rfl

/-! `State.withFetchWord` -/

@[simp] theorem withFetchWord_cmd (s : State) (nbits w : Nat) :
    (s.withFetchWord nbits w).lq.cmd = BitVec.ofNat 32 (w % 2 ^ nbits) := rfl
@[simp] theorem withFetchWord_a (s : State) (nbits w : Nat) : (s.withFetchWord nbits w).lq.a = s.lq.a := rfl
@[simp] theorem withFetchWord_b (s : State) (nbits w : Nat) : (s.withFetchWord nbits w).lq.b = s.lq.b := rfl
@[simp] theorem withFetchWord_f64 (s : State) (nbits w : Nat) : (s.withFetchWord nbits w).lq.f64 = s.lq.f64 := rfl
@[simp] theorem withFetchWord_resp (s : State) (nbits w : Nat) : (s.withFetchWord nbits w).resp = s.resp := rfl
@[simp] theorem withFetchWord_busy (s : State) (nbits w : Nat) : (s.withFetchWord nbits w).busy = true := rfl
@[simp] theorem withFetchWord_edgesLeft (s : State) (nbits w : Nat) : (s.withFetchWord nbits w).edgesLeft = 1 := rfl
@[simp] theorem withFetchWord_rst (s : State) (nbits w : Nat) : (s.withFetchWord nbits w).pins.rst = false := rfl

end Sys2Proof.Machine
end

