-- ==== Sys2Proof/Laws/Ops.lean ====
section
/-! SUPPORT. What the shared operations answer, said once: the checks, a meaning, a completing edge, a step. -/

namespace Sys2Proof.Machine

@[simp] theorem answer_none (r : Response) : answer none r = r := rfl
@[simp] theorem answer_some (c : ErrorCode) (r : Response) : answer (some c) r = errorResponse c := rfl

@[simp] theorem valueResponse_rErr (F : Format) (v : Value) : (valueResponse F v).rErr = 0#2 := rfl
@[simp] theorem valueResponse_rM (F : Format) (v : Value) : (valueResponse F v).rM = BitVec.ofNat 16 F.m := rfl
@[simp] theorem valueResponse_rE (F : Format) (v : Value) : (valueResponse F v).rE = BitVec.ofNat 8 F.e := rfl
@[simp] theorem valueResponse_rBits (F : Format) (v : Value) : (valueResponse F v).rBits = pack F v := rfl
@[simp] theorem valueResponse_rWord (F : Format) (v : Value) : (valueResponse F v).rWord = 0#64 := rfl
@[simp] theorem wordResponse_rErr (w : BitVec 64) : (wordResponse w).rErr = 0#2 := rfl
@[simp] theorem wordResponse_rM (w : BitVec 64) : (wordResponse w).rM = 0#16 := rfl
@[simp] theorem wordResponse_rE (w : BitVec 64) : (wordResponse w).rE = 0#8 := rfl
@[simp] theorem wordResponse_rBits (w : BitVec 64) : (wordResponse w).rBits = 0#portBits := rfl
@[simp] theorem wordResponse_rWord (w : BitVec 64) : (wordResponse w).rWord = w := rfl
@[simp] theorem errorResponse_rErr (c : ErrorCode) : (errorResponse c).rErr = errorBits c := rfl
@[simp] theorem errorResponse_rM (c : ErrorCode) : (errorResponse c).rM = 0#16 := rfl
@[simp] theorem errorResponse_rE (c : ErrorCode) : (errorResponse c).rE = 0#8 := rfl
@[simp] theorem errorResponse_rBits (c : ErrorCode) : (errorResponse c).rBits = 0#portBits := rfl
@[simp] theorem errorResponse_rWord (c : ErrorCode) : (errorResponse c).rWord = 0#64 := rfl

/-- The check of one format passes exactly on a valid format. -/
theorem checkFormat_eq_none {F : Format} : checkFormat F = none ↔ formatValid F = true := by
  unfold checkFormat; split <;> simp_all

/-- The checks of a two-operand operation pass exactly when both formats are valid and equal (R170). -/
theorem checkBoth_eq_none {q : Request} :
    checkBoth q = none ↔ formatValid (tagOf q.a) = true ∧ formatValid (tagOf q.b) = true ∧ tagOf q.a = tagOf q.b := by
  unfold checkBoth; split_ifs <;> simp_all

/-- The checks of FCAST pass exactly when both formats are valid (R160). -/
theorem checkAAndTarget_eq_none {q : Request} {t : Format} :
    checkAAndTarget q t = none ↔ formatValid (tagOf q.a) = true ∧ formatValid t = true := by
  unfold checkAAndTarget; split_ifs <;> simp_all

/-- Every meaning completes its transaction with its response and does nothing else. -/
theorem exec_eq (i : Instr) (s : State) : exec i s = .next (complete (respond i s.lq (currentDraw s)) s) := by
  cases i <;> rfl

/-- A completing edge answers Exec of the latched request. -/
theorem runCommand_eq (s : State) : runCommand s.lq.cmd s = .next (complete (transact s.lq (currentDraw s)) s) := by
  unfold runCommand transact
  cases decode s.lq.cmd with
  | ok i => exact exec_eq i s
  | error r => rfl

/-- The edge that completes a transaction, as an equation (R191). -/
theorem step_completing {s : State} (hr : s.pins.rst = false) (hb : s.busy = true) (he : s.edgesLeft ≤ 1) :
    step s = .next (complete (transact s.lq (currentDraw s)) (hostDrives s)) := by
  have h := runCommand_eq (hostDrives s)
  simp only [hostDrives_lq, currentDraw_hostDrives] at h
  simp [step, hr, hb, he, h]

/-- What one step can do: reset, complete, wait, accept or idle; it never faults and never refuses. -/
theorem step_cases (s : State) :
    (s.pins.rst = true ∧ step s = .next (resetBlock (hostDrives s))) ∨
    (s.pins.rst = false ∧ s.busy = true ∧ s.edgesLeft ≤ 1 ∧
      step s = .next (complete (transact s.lq (currentDraw s)) (hostDrives s))) ∨
    (s.pins.rst = false ∧ s.busy = true ∧ 1 < s.edgesLeft ∧ step s = .next (awaitEdge (hostDrives s))) ∨
    (s.pins.rst = false ∧ s.busy = false ∧ s.pins.start = true ∧
      step s = .next (accept s.pins.req (hostDrives s))) ∨
    (s.pins.rst = false ∧ s.busy = false ∧ s.pins.start = false ∧ step s = .next (hostDrives s)) := by
  cases hr : s.pins.rst
  · cases hb : s.busy
    · cases hs : s.pins.start <;> simp [step, hr, hb, hs]
    · rcases Nat.lt_or_ge 1 s.edgesLeft with he | he
      · simp [step, hr, hb, he, Nat.not_le.mpr he]
      · simp [he, step_completing hr hb he]
  · simp [step, hr]

end Sys2Proof.Machine
end

