-- ==== Sys2Proof/Laws/PerInstr.lean ====
section
/-! SUPPORT. Two facts about the instructions as syntax, one lemma per constructor: the row of R66 that the encoding
of an instruction selects, and that the instruction's column "reads" names the target fields exactly when its encoding
carries them. -/

/-- The family: `CMD[7:0]` of an instruction's encoding selects the instruction's own row of R66, and a target format
is in the command word exactly where the operation reads one (R63, R66, R69, R71). -/
def Sys2Proof.Laws.RowSelection.Statement (i : Sys2Proof.Instr) : Prop :=
  Sys2Proof.opcOf (Sys2Proof.encode i) = Sys2Proof.opcodeOf i ∧ Sys2Proof.rsvOf (Sys2Proof.encode i) = 0#2 ∧
    (i.wellFormed = true →
      Sys2Proof.targetOf (Sys2Proof.encode i) = (Sys2Proof.Machine.targetRead i).getD ⟨0, 0⟩)

namespace Sys2Proof.Laws.RowSelection

open Sys2Proof Sys2Proof.Machine

/-- A command word without operand fields. -/
theorem plain (i : Instr) (h : encode i = cmdWord (opcodeOf i) false ⟨0, 0⟩) (ht : targetRead i = none) :
    Statement i := by
  refine ⟨by rw [h, opcOf_cmdWord], by rw [h, rsvOf_cmdWord], fun _ => ?_⟩
  rw [h, ht, targetOf_cmdWord _ _ (by decide)]
  rfl

/-- A command word with a target format. -/
theorem withTarget (i : Instr) (t : Format) (sg : Bool) (h : encode i = cmdWord (opcodeOf i) sg t)
    (ht : targetRead i = some t) (hw : i.wellFormed = t.fitsFields) : Statement i := by
  refine ⟨by rw [h, opcOf_cmdWord], by rw [h, rsvOf_cmdWord], fun g => ?_⟩
  rw [h, ht, targetOf_cmdWord _ _ (hw ▸ g)]
  rfl

theorem fadd : Statement .fadd := plain _ rfl rfl
theorem fsub : Statement .fsub := plain _ rfl rfl
theorem fmul : Statement .fmul := plain _ rfl rfl
theorem fdiv : Statement .fdiv := plain _ rfl rfl
theorem feq : Statement .feq := plain _ rfl rfl
theorem fne : Statement .fne := plain _ rfl rfl
theorem flt : Statement .flt := plain _ rfl rfl
theorem fle : Statement .fle := plain _ rfl rfl
theorem fgt : Statement .fgt := plain _ rfl rfl
theorem fge : Statement .fge := plain _ rfl rfl
theorem fcast (t : Format) : Statement (.fcast t) := withTarget _ t false rfl rfl rfl
theorem fcvtXF64 (t : Format) : Statement (.fcvtXF64 t) := withTarget _ t false rfl rfl rfl
theorem fcvtF64X : Statement .fcvtF64X := plain _ rfl rfl
theorem fclass : Statement .fclass := plain _ rfl rfl
theorem fsetzero (t : Format) : Statement (.fsetzero t) := withTarget _ t false rfl rfl rfl
theorem fsetinf (t : Format) (sg : Bool) : Statement (.fsetinf t sg) := withTarget _ t sg rfl rfl rfl
theorem fsetnan (t : Format) : Statement (.fsetnan t) := withTarget _ t false rfl rfl rfl

end Sys2Proof.Laws.RowSelection
end

