-- ==== Sys2Proof/Laws/Rounding.lean ====
section
/-! SUPPORT. Round-and-pack: what `ilog2`, `roundEven` and `roundPack` do, said once
(spec/41_rounding.md R121, R122). -/

namespace Sys2Proof.Machine

/-- A power of two is positive. -/
theorem two_zpow_pos (k : Int) : (0 : ℚ) < (2 : ℚ) ^ k := zpow_pos (by norm_num) k

/-- The bit lengths of numerator and denominator place their quotient within two binades. -/
theorem quotient_binade {n d : Nat} (hn : n ≠ 0) (hd : d ≠ 0) :
    (2 : ℚ) ^ ((Nat.log2 n : Int) - Nat.log2 d - 1) ≤ (n : ℚ) / d ∧
      (n : ℚ) / d < (2 : ℚ) ^ ((Nat.log2 n : Int) - Nat.log2 d + 1) := by
  have hdpos : (0 : ℚ) < (d : ℚ) := Nat.cast_pos.mpr (Nat.pos_of_ne_zero hd)
  constructor
  · rw [le_div_iff₀ hdpos, sub_sub, zpow_sub₀ (by norm_num), div_mul_eq_mul_div, div_le_iff₀ (two_zpow_pos _)]
    have h : 2 ^ Nat.log2 n * d ≤ n * 2 ^ (Nat.log2 d + 1) :=
      Nat.mul_le_mul (Nat.log2_self_le hn) (Nat.lt_log2_self).le
    exact_mod_cast h
  · rw [div_lt_iff₀ hdpos, sub_add_eq_add_sub, zpow_sub₀ (by norm_num), div_mul_eq_mul_div,
      lt_div_iff₀ (two_zpow_pos _)]
    have h : n * 2 ^ Nat.log2 d < 2 ^ (Nat.log2 n + 1) * d :=
      Nat.mul_lt_mul_of_lt_of_le Nat.lt_log2_self (Nat.log2_self_le hd) (by positivity)
    exact_mod_cast h

/-- `ilog2` is the exponent of the binade of a positive rational (R7). -/
theorem ilog2_spec {q : ℚ} (hq : 0 < q) : (2 : ℚ) ^ ilog2 q ≤ q ∧ q < (2 : ℚ) ^ (ilog2 q + 1) := by
  have hnum : 0 < q.num := Rat.num_pos.mpr hq
  have hqe : (q.num.natAbs : ℚ) / (q.den : ℚ) = q := by
    rw [Nat.cast_natAbs, abs_of_pos hnum, Rat.num_div_den]
  obtain ⟨hlow, hhigh⟩ := quotient_binade (n := q.num.natAbs) (d := q.den) (by omega) q.den_ne_zero
  rw [hqe] at hlow hhigh
  simp only [ilog2]
  split
  · exact ⟨‹_›, hhigh⟩
  · rename_i h
    exact ⟨hlow, by simpa using h⟩

/-- The binade's exponent is unique, so it is what `ilog2` gives. -/
theorem ilog2_eq {q : ℚ} {k : Int} (h1 : (2 : ℚ) ^ k ≤ q) (h2 : q < (2 : ℚ) ^ (k + 1)) : ilog2 q = k := by
  have hq : 0 < q := lt_of_lt_of_le (two_zpow_pos k) h1
  obtain ⟨g1, g2⟩ := ilog2_spec hq
  have a : k < ilog2 q + 1 := (zpow_lt_zpow_iff_right₀ (by norm_num : (1 : ℚ) < 2)).mp (lt_of_le_of_lt h1 g2)
  have b : ilog2 q < k + 1 := (zpow_lt_zpow_iff_right₀ (by norm_num : (1 : ℚ) < 2)).mp (lt_of_le_of_lt g1 h2)
  omega

/-- `ilog2` is monotone. -/
theorem ilog2_mono {p q : ℚ} (hp : 0 < p) (h : p ≤ q) : ilog2 p ≤ ilog2 q := by
  have a := (ilog2_spec hp).1
  have b := (ilog2_spec (lt_of_lt_of_le hp h)).2
  have := (zpow_lt_zpow_iff_right₀ (by norm_num : (1 : ℚ) < 2)).mp (lt_of_le_of_lt (a.trans h) b)
  omega

/-- The two answers of `roundEven`: the floor where less than half lies below the last retained bit (or exactly half
and the floor is even), its successor else (R121, R122). -/
theorem roundEven_cases (t : ℚ) :
    (roundEven t = ⌊t⌋ ∧ (t - ⌊t⌋ < 1 / 2 ∨ (t - ⌊t⌋ = 1 / 2 ∧ ⌊t⌋ % 2 = 0))) ∨
    (roundEven t = ⌊t⌋ + 1 ∧ (t - ⌊t⌋ > 1 / 2 ∨ (t - ⌊t⌋ = 1 / 2 ∧ ⌊t⌋ % 2 = 1))) := by
  have hf : t.floor = ⌊t⌋ := rfl
  simp only [roundEven, hf]
  split
  · exact Or.inr ⟨rfl, by assumption⟩
  · rename_i h
    refine Or.inl ⟨rfl, ?_⟩
    rw [not_or, not_and] at h
    rcases lt_or_eq_of_le (not_lt.mp h.1) with g | g
    · exact Or.inl g
    · exact Or.inr ⟨g, by have := h.2 g; omega⟩

/-- Rounding moves a number by at most half a unit. -/
theorem roundEven_near (t : ℚ) : |t - roundEven t| ≤ 1 / 2 := by
  have h1 := Int.floor_le t
  have h2 := Int.lt_floor_add_one t
  rw [abs_le]
  rcases roundEven_cases t with ⟨h, g | g⟩ | ⟨h, g | g⟩ <;> rw [h] <;> push_cast <;>
    constructor <;> linarith [g]

/-- Rounding keeps an integer. -/
@[simp] theorem roundEven_int (n : Int) : roundEven (n : ℚ) = n := by
  rcases roundEven_cases (n : ℚ) with ⟨h, -⟩ | ⟨-, g⟩
  · simpa using h
  · norm_num at g

/-- An integer lower bound survives rounding. -/
theorem le_roundEven {t : ℚ} {n : Int} (h : (n : ℚ) ≤ t) : n ≤ roundEven t := by
  have := Int.le_floor.mpr h
  rcases roundEven_cases t with ⟨e, -⟩ | ⟨e, -⟩ <;> omega

/-- An integer upper bound survives rounding. -/
theorem roundEven_le {t : ℚ} {n : Int} (h : t ≤ (n : ℚ)) : roundEven t ≤ n := by
  have a := roundEven_near t
  rw [abs_le] at a
  have : (roundEven t : ℚ) < (n + 1 : Int) := by push_cast; linarith [a.1]
  have := Int.cast_lt.mp this
  omega

/-- Rounding is monotone. -/
theorem roundEven_mono {t u : ℚ} (h : t ≤ u) : roundEven t ≤ roundEven u := by
  have hf := Int.floor_le_floor h
  have ht := roundEven_cases t
  have hu := roundEven_cases u
  rcases lt_or_eq_of_le hf with g | g
  · rcases ht with ⟨e, -⟩ | ⟨e, -⟩ <;> rcases hu with ⟨e', -⟩ | ⟨e', -⟩ <;> omega
  · rw [← g] at hu
    rcases ht with ⟨e, -⟩ | ⟨e, a⟩
    · rcases hu with ⟨e', -⟩ | ⟨e', -⟩ <;> omega
    · rcases hu with ⟨e', b⟩ | ⟨e', -⟩
      · exfalso
        rcases a with a | ⟨a, a'⟩ <;> rcases b with b | ⟨b, b'⟩
        · linarith
        · linarith
        · linarith
        · omega
      · omega

/-- The scaled magnitude `t` of R121 lies in `[2^m, 2^(m+1))`. -/
theorem scaled_range {q : ℚ} (hq : 0 < q) (m : Nat) :
    (2 : ℚ) ^ m ≤ q * (2 : ℚ) ^ ((m : Int) - ilog2 q) ∧
      q * (2 : ℚ) ^ ((m : Int) - ilog2 q) < (2 : ℚ) ^ (m + 1) := by
  obtain ⟨h1, h2⟩ := ilog2_spec hq
  have hp := two_zpow_pos ((m : Int) - ilog2 q)
  constructor
  · calc (2 : ℚ) ^ m = (2 : ℚ) ^ ilog2 q * (2 : ℚ) ^ ((m : Int) - ilog2 q) := by
          rw [← zpow_add₀ (by norm_num), ← zpow_natCast]; congr 1; omega
      _ ≤ _ := by gcongr
  · calc q * (2 : ℚ) ^ ((m : Int) - ilog2 q) < (2 : ℚ) ^ (ilog2 q + 1) * (2 : ℚ) ^ ((m : Int) - ilog2 q) := by gcongr
      _ = (2 : ℚ) ^ (m + 1) := by
          rw [← zpow_add₀ (by norm_num), ← zpow_natCast]; congr 1; push_cast; omega

/-- The retained bits after rounding lie in `[2^m, 2^(m+1)]` (R121). -/
theorem roundEven_scaled_range {q : ℚ} (hq : 0 < q) (m : Nat) :
    (2 : Int) ^ m ≤ roundEven (q * (2 : ℚ) ^ ((m : Int) - ilog2 q)) ∧
      roundEven (q * (2 : ℚ) ^ ((m : Int) - ilog2 q)) ≤ (2 : Int) ^ (m + 1) := by
  obtain ⟨h1, h2⟩ := scaled_range hq m
  exact ⟨le_roundEven (by push_cast; exact h1), roundEven_le (by push_cast; exact h2.le)⟩

/-- The two ways `carryPack` packs a significand: as it is, or after a carry out of the mantissa (R121). -/
theorem carryPack_cases (F : Format) (s : Bool) {n : Int} (k : Int)
    (h2 : n ≤ (2 : Int) ^ (F.m + 1)) :
    (carryPack F s n k = packNormal F s n k ∧ n < (2 : Int) ^ (F.m + 1)) ∨
      (carryPack F s n k = packNormal F s (2 ^ F.m) (k + 1) ∧ n = (2 : Int) ^ (F.m + 1)) := by
  unfold carryPack
  split
  · exact Or.inr ⟨rfl, ‹_›⟩
  · exact Or.inl ⟨rfl, lt_of_le_of_ne h2 ‹_›⟩

/-- The significand of a value of a format lies in `[2^m, 2^(m+1))` (R103). -/
theorem significand_range {F : Format} {v : Value} (h : v.f < 2 ^ F.m) :
    (2 : ℚ) ^ F.m ≤ (significand F v : ℚ) ∧ (significand F v : ℚ) < (2 : ℚ) ^ (F.m + 1) := by
  have h1 : 2 ^ F.m ≤ significand F v := by unfold significand; omega
  have h2 : significand F v < 2 ^ (F.m + 1) := by unfold significand; rw [pow_succ]; omega
  exact ⟨by exact_mod_cast h1, by exact_mod_cast h2⟩

/-- A value's unbiased exponent is the binade of its magnitude (R103). -/
theorem ilog2_mag {F : Format} {v : Value} (h : v.f < 2 ^ F.m) : ilog2 (mag F v) = (v.x : Int) - bias F.e := by
  obtain ⟨h1, h2⟩ := significand_range h
  have hp := two_zpow_pos ((v.x : Int) - bias F.e - F.m)
  apply ilog2_eq
  · calc (2 : ℚ) ^ ((v.x : Int) - bias F.e) = (2 : ℚ) ^ F.m * (2 : ℚ) ^ ((v.x : Int) - bias F.e - F.m) := by
          rw [← zpow_natCast, ← zpow_add₀ (by norm_num)]; congr 1; omega
      _ ≤ _ := by unfold mag; gcongr
  · calc mag F v < (2 : ℚ) ^ (F.m + 1) * (2 : ℚ) ^ ((v.x : Int) - bias F.e - F.m) := by unfold mag; gcongr
      _ = (2 : ℚ) ^ ((v.x : Int) - bias F.e + 1) := by
          rw [← zpow_natCast, ← zpow_add₀ (by norm_num)]; congr 1; push_cast; omega

/-- What `packNormal` answers for a normalized significand: overflow, underflow, or the NORMAL value whose magnitude is
the significand at the exponent (R121, R124). -/
theorem packNormal_cases {F : Format} (he : 2 ≤ F.e) (s : Bool) {n k : Int} (h1 : (2 : Int) ^ F.m ≤ n)
    (h2 : n < (2 : Int) ^ (F.m + 1)) :
    ((bias F.e : Int) < k ∧ packNormal F s n k = infV F s) ∨
    (k < 1 - (bias F.e : Int) ∧ packNormal F s n k = zeroV F s) ∨
    (1 - (bias F.e : Int) ≤ k ∧ k ≤ bias F.e ∧ (packNormal F s n k).s = s ∧
      ((packNormal F s n k).x : Int) = k + bias F.e ∧ ((packNormal F s n k).f : Int) = n - 2 ^ F.m ∧
      (packNormal F s n k).inFormat F = true ∧ classOf F (packNormal F s n k) = .normal ∧
      mag F (packNormal F s n k) = n * (2 : ℚ) ^ (k - F.m)) := by
  simp only [packNormal, xMax_eq_bias he]
  split_ifs with g1 g2
  · exact Or.inl ⟨by omega, rfl⟩
  · exact Or.inr (Or.inl ⟨by omega, rfl⟩)
  · have hx : (((k + bias F.e).toNat : Nat) : Int) = k + bias F.e := Int.toNat_of_nonneg (by omega)
    have hf : (((n - 2 ^ F.m).toNat : Nat) : Int) = n - 2 ^ F.m := Int.toNat_of_nonneg (by omega)
    have e1 := onesExp_eq_bias he
    have e2 := two_pow_eq_bias he
    refine Or.inr (Or.inr ⟨by omega, by omega, rfl, hx, hf, ?_, ?_, ?_⟩)
    · rw [inFormat_iff]
      refine ⟨by dsimp only; omega, ?_⟩
      rw [pow_succ] at h2
      have h : (((n - 2 ^ F.m).toNat : Nat) : Int) < ((2 ^ F.m : Nat) : Int) := by rw [hf]; push_cast; omega
      exact_mod_cast h
    · rw [classOf_normal_iff]; dsimp only; omega
    · have h : ((2 ^ F.m + (n - 2 ^ F.m).toNat : Nat) : Int) = n := by push_cast; omega
      have hq : ((2 ^ F.m + (n - 2 ^ F.m).toNat : Nat) : ℚ) = (n : ℚ) := by exact_mod_cast h
      simp only [mag, significand, hq, hx]
      congr 2; ring

/-- The rounded magnitude before the range check: the retained bits at the exponent of `q` (R121). -/
def roundedMag (m : Nat) (q : ℚ) : ℚ :=
  (roundEven (q * (2 : ℚ) ^ ((m : Int) - ilog2 q)) : ℚ) * (2 : ℚ) ^ (ilog2 q - m)

/-- What round-and-pack answers, by the size of the rounded magnitude (R121, R124 to R126). -/
theorem roundPack_cases {F : Format} (he : 2 ≤ F.e) (s : Bool) {q : ℚ} (hq : 0 < q) :
    ((2 : ℚ) ^ ((bias F.e : Int) + 1) ≤ roundedMag F.m q ∧ roundPack F s q = infV F s) ∨
    (roundedMag F.m q < (2 : ℚ) ^ (1 - (bias F.e : Int)) ∧ roundPack F s q = zeroV F s) ∨
    ((2 : ℚ) ^ (1 - (bias F.e : Int)) ≤ roundedMag F.m q ∧ roundedMag F.m q < (2 : ℚ) ^ ((bias F.e : Int) + 1) ∧
      (roundPack F s q).s = s ∧ (roundPack F s q).inFormat F = true ∧ classOf F (roundPack F s q) = .normal ∧
      mag F (roundPack F s q) = roundedMag F.m q) := by
  obtain ⟨h1, h2⟩ := roundEven_scaled_range hq F.m
  have key : ∃ n k : Int, roundPack F s q = packNormal F s n k ∧ (2 : Int) ^ F.m ≤ n ∧ n < (2 : Int) ^ (F.m + 1) ∧
      (n : ℚ) * (2 : ℚ) ^ (k - F.m) = roundedMag F.m q := by
    rcases carryPack_cases F s (ilog2 q) h2 with ⟨e, h⟩ | ⟨e, h⟩
    · exact ⟨_, _, e, h1, h, rfl⟩
    · refine ⟨_, _, e, le_refl _, ?_, ?_⟩
      · rw [pow_succ]; have : (0 : Int) < 2 ^ F.m := by positivity
        omega
      · unfold roundedMag; rw [h]; push_cast
        rw [← zpow_natCast, ← zpow_natCast, ← zpow_add₀ (by norm_num), ← zpow_add₀ (by norm_num)]
        congr 1; push_cast; ring
  obtain ⟨n, k, e, n1, n2, hr⟩ := key
  have lo : (2 : ℚ) ^ k ≤ roundedMag F.m q := by
    rw [← hr]
    calc (2 : ℚ) ^ k = (2 : ℚ) ^ F.m * (2 : ℚ) ^ (k - F.m) := by
          rw [← zpow_natCast, ← zpow_add₀ (by norm_num)]; congr 1; omega
      _ ≤ _ := by have := two_zpow_pos (k - F.m); gcongr; exact_mod_cast n1
  have hi : roundedMag F.m q < (2 : ℚ) ^ (k + 1) := by
    rw [← hr]
    calc (n : ℚ) * (2 : ℚ) ^ (k - F.m) < (2 : ℚ) ^ (F.m + 1) * (2 : ℚ) ^ (k - F.m) := by
          have := two_zpow_pos (k - F.m); gcongr; exact_mod_cast n2
      _ = _ := by rw [← zpow_natCast, ← zpow_add₀ (by norm_num)]; congr 1; push_cast; omega
  rw [e]
  rcases packNormal_cases he s n1 n2 with ⟨g, e'⟩ | ⟨g, e'⟩ | ⟨g1, g2, e1, -, -, e2, e3, e4⟩
  · exact Or.inl ⟨le_trans (zpow_le_zpow_right₀ (by norm_num) (by omega)) lo, e'⟩
  · exact Or.inr (Or.inl ⟨lt_of_lt_of_le hi (zpow_le_zpow_right₀ (by norm_num) (by omega)), e'⟩)
  · refine Or.inr (Or.inr ⟨le_trans (zpow_le_zpow_right₀ (by norm_num) (by omega)) lo,
      lt_of_lt_of_le hi (zpow_le_zpow_right₀ (by norm_num) (by omega)), e1, e2, e3, e4.trans hr⟩)

/-- The rounded magnitude is monotone, binade by binade (R127). -/
theorem roundedMag_mono (m : Nat) {p q : ℚ} (hp : 0 < p) (h : p ≤ q) : roundedMag m p ≤ roundedMag m q := by
  have hq := lt_of_lt_of_le hp h
  obtain ⟨-, a⟩ := roundEven_scaled_range hp m
  obtain ⟨b, -⟩ := roundEven_scaled_range hq m
  have hp2 := two_zpow_pos (ilog2 p - m)
  have hq2 := two_zpow_pos (ilog2 q - m)
  rcases eq_or_lt_of_le (ilog2_mono hp h) with e | e
  · unfold roundedMag
    rw [e]
    have hs := two_zpow_pos ((m : Int) - ilog2 q)
    gcongr
    apply roundEven_mono
    gcongr
  · unfold roundedMag
    calc (roundEven (p * 2 ^ ((m : Int) - ilog2 p)) : ℚ) * 2 ^ (ilog2 p - m)
        ≤ (2 : ℚ) ^ (m + 1) * 2 ^ (ilog2 p - m) := by gcongr; exact_mod_cast a
      _ = (2 : ℚ) ^ (ilog2 p + 1) := by rw [← zpow_natCast, ← zpow_add₀ (by norm_num)]; congr 1; push_cast; omega
      _ ≤ (2 : ℚ) ^ (ilog2 q) := zpow_le_zpow_right₀ (by norm_num) (by omega)
      _ = (2 : ℚ) ^ m * 2 ^ (ilog2 q - m) := by rw [← zpow_natCast, ← zpow_add₀ (by norm_num)]; congr 1; omega
      _ ≤ _ := by gcongr; exact_mod_cast b

/-- Round-and-pack answers a value of the format, and no non-canonical zero (R121, R125). -/
theorem roundPack_canonical {F : Format} (he : 2 ≤ F.e) (s : Bool) {q : ℚ} (hq : 0 < q) :
    (roundPack F s q).inFormat F = true ∧ ((roundPack F s q).x = 0 → (roundPack F s q).f = 0) := by
  rcases roundPack_cases he s hq with ⟨-, e⟩ | ⟨-, e⟩ | ⟨-, -, -, e, c, -⟩
  · rw [e]; exact ⟨inFormat_infV _ _, fun _ => rfl⟩
  · rw [e]; exact ⟨inFormat_zeroV _ _, fun _ => rfl⟩
  · exact ⟨e, fun h => absurd h (classOf_normal_iff.mp c).1⟩

end Sys2Proof.Machine
end

