-- ==== Sys2Proof/Laws/Results.lean ====
section
/-! SUPPORT. What the operations answer, as a whole: every result is a canonical value of its format (the identity cast
apart), and every response is an error, a word or a value of a valid format. -/

namespace Sys2Proof.Machine

/-- A value of the format whose zero patterns are the canonical zeros (R102). -/
def Canonical (F : Format) (v : Value) : Prop := v.inFormat F = true ∧ (v.x = 0 → v.f = 0)

theorem canonical_infV (F : Format) (s : Bool) : Canonical F (infV F s) := ⟨inFormat_infV _ _, fun _ => rfl⟩

theorem canonical_zeroV (F : Format) (s : Bool) : Canonical F (zeroV F s) := ⟨inFormat_zeroV _ _, fun _ => rfl⟩

/-- A value with the exponent field `1^e` is no zero pattern. -/
theorem canonical_of_nan {F : Format} {v : Value} (hf : v.inFormat F = true) (hc : classOf F v = .nan) :
    Canonical F v := ⟨hf, fun h => absurd h (classOf_nan_iff.mp hc).1⟩

theorem canonical_qNaN {F : Format} (hF : formatValid F = true) (s : Bool) : Canonical F (qNaN F s) :=
  canonical_of_nan (inFormat_qNaN (formatValid_bounds hF).1 s) (classOf_qNaN (formatValid_bounds hF).2.1 s)

theorem canonical_drawnNaN {F : Format} (hF : formatValid F = true) (d : NanDraw) : Canonical F (drawnNaN F d) :=
  canonical_of_nan (inFormat_drawnNaN (formatValid_bounds hF).1 d) (classOf_drawnNaN (formatValid_bounds hF).2.1 d)

theorem canonical_roundPack {F : Format} (hF : formatValid F = true) (s : Bool) {q : ℚ} (hq : 0 < q) :
    Canonical F (roundPack F s q) := roundPack_canonical (formatValid_bounds hF).2.1 s hq

theorem canonical_addValue {F : Format} (hF : formatValid F = true) (d : NanDraw) (a b : Value) :
    Canonical F (addValue F (drawnNaN F d) a b) := by
  unfold addValue roundSum
  dsimp only
  split_ifs <;> first
    | exact canonical_qNaN hF _ | exact canonical_infV _ _ | exact canonical_zeroV _ _
    | exact canonical_drawnNaN hF _ | exact canonical_roundPack hF _ (abs_pos.mpr ‹_›)

theorem canonical_mulValue {F : Format} (hF : formatValid F = true) (a b : Value) : Canonical F (mulValue F a b) := by
  unfold mulValue
  dsimp only
  split_ifs <;> first
    | exact canonical_qNaN hF _ | exact canonical_infV _ _ | exact canonical_zeroV _ _
    | exact canonical_roundPack hF _ (mul_pos (mag_pos _ _) (mag_pos _ _))

theorem canonical_divValue {F : Format} (hF : formatValid F = true) (a b : Value) : Canonical F (divValue F a b) := by
  unfold divValue
  dsimp only
  split_ifs <;> first
    | exact canonical_qNaN hF _ | exact canonical_infV _ _ | exact canonical_zeroV _ _
    | exact canonical_roundPack hF _ (div_pos (mag_pos _ _) (mag_pos _ _))

/-- A cast that is not the identity is canonical (R161). -/
theorem canonical_castValue {F T : Format} (hT : formatValid T = true) (h : T ≠ F) (a : Value) :
    Canonical T (castValue F T a) := by
  unfold castValue
  rw [if_neg h]
  split <;> first
    | exact canonical_qNaN hT _ | exact canonical_zeroV _ _ | exact canonical_infV _ _
    | exact canonical_roundPack hT _ (mag_pos _ _)

/-- A finite binary64 word that is no zero has a positive magnitude (R110). -/
theorem f64Mag_pos {w : BitVec 64} (h : f64ClassOf w = .finite) : 0 < f64Mag w := by
  unfold f64Mag
  dsimp only
  split
  · rename_i hx
    have hf : 0 < (f64Fields w).f := by
      rcases Nat.eq_zero_or_pos (f64Fields w).f with h0 | h0
      · simp [f64ClassOf, hx, h0] at h
      · exact h0
    positivity
  · positivity

theorem canonical_fromF64Value {T : Format} (hT : formatValid T = true) (w : BitVec 64) :
    Canonical T (fromF64Value T w) := by
  unfold fromF64Value
  dsimp only
  split <;> first
    | exact canonical_qNaN hT _ | exact canonical_infV _ _ | exact canonical_zeroV _ _
    | exact canonical_roundPack hT _ (f64Mag_pos ‹_›)

/-- What a response can be: an error, a word, or a value of a valid format (R174, R176). -/
inductive ResponseShape (i : Instr) (q : Request) : Response → Prop where
  | error (c : ErrorCode) : ResponseShape i q (errorResponse c)
  | word (w : BitVec 64) : ResponseShape i q (wordResponse w)
  | value (F : Format) (v : Value) (valid : formatValid F = true) (fits : v.inFormat F = true)
      (canonical : i ≠ .fcast (tagOf q.a) → v.x = 0 → v.f = 0) : ResponseShape i q (valueResponse F v)

theorem shape_answer_word (i : Instr) (q : Request) (c : Option ErrorCode) (w : BitVec 64) :
    ResponseShape i q (answer c (wordResponse w)) := by
  cases c with
  | none => exact .word w
  | some c => exact .error c

theorem shape_answer_value {i : Instr} {q : Request} {c : Option ErrorCode} {F : Format} {v : Value}
    (h : c = none → formatValid F = true ∧ Canonical F v) : ResponseShape i q (answer c (valueResponse F v)) := by
  cases c with
  | none => obtain ⟨hF, hv⟩ := h rfl; exact .value F v hF hv.1 fun _ => hv.2
  | some c => exact .error c

/-- Every operation answers a response of one of the three shapes. -/
theorem respond_shape (i : Instr) (q : Request) (d : NanDraw) : ResponseShape i q (respond i q d) := by
  cases i with
  | fadd => exact shape_answer_value fun h => have hF := (checkBoth_eq_none.mp h).1; ⟨hF, canonical_addValue hF _ _ _⟩
  | fsub => exact shape_answer_value fun h => have hF := (checkBoth_eq_none.mp h).1; ⟨hF, canonical_addValue hF _ _ _⟩
  | fmul => exact shape_answer_value fun h => have hF := (checkBoth_eq_none.mp h).1; ⟨hF, canonical_mulValue hF _ _⟩
  | fdiv => exact shape_answer_value fun h => have hF := (checkBoth_eq_none.mp h).1; ⟨hF, canonical_divValue hF _ _⟩
  | feq => exact shape_answer_word _ _ _ _
  | fne => exact shape_answer_word _ _ _ _
  | flt => exact shape_answer_word _ _ _ _
  | fle => exact shape_answer_word _ _ _ _
  | fgt => exact shape_answer_word _ _ _ _
  | fge => exact shape_answer_word _ _ _ _
  | fcast t =>
    by_cases ht : t = tagOf q.a
    · simp only [respond, fcastResponse]
      rcases h : checkAAndTarget q t with _ | c
      · refine .value t _ (checkAAndTarget_eq_none.mp h).2 ?_ fun hne => absurd (by rw [ht]) hne
        simp only [castValue, if_pos ht]
        rw [ht]
        exact inFormat_valueOf q.a
      · exact .error c
    · exact shape_answer_value fun h =>
        have hT := (checkAAndTarget_eq_none.mp h).2; ⟨hT, canonical_castValue hT ht _⟩
  | fcvtXF64 t =>
    exact shape_answer_value fun h => have hT := checkFormat_eq_none.mp h; ⟨hT, canonical_fromF64Value hT _⟩
  | fcvtF64X => exact shape_answer_word _ _ _ _
  | fclass => exact shape_answer_word _ _ _ _
  | fsetzero t => exact shape_answer_value fun h => ⟨checkFormat_eq_none.mp h, canonical_zeroV _ _⟩
  | fsetinf t sg => exact shape_answer_value fun h => ⟨checkFormat_eq_none.mp h, canonical_infV _ _⟩
  | fsetnan t => exact shape_answer_value fun h => have hT := checkFormat_eq_none.mp h; ⟨hT, canonical_qNaN hT _⟩

/-- A value response of a valid format is well formed and fits the port (R61, R176). -/
theorem valueResponse_wellFormed {F : Format} {v : Value} (hF : formatValid F = true) (hv : v.inFormat F = true) :
    responseWellFormed (valueResponse F v) ∧ (valueResponse F v).rBits.toNat < 2 ^ Config.portWidth := by
  obtain ⟨-, -, hm, he, hw⟩ := formatValid_bounds hF
  have hm : F.m % 2 ^ 16 = F.m := Nat.mod_eq_of_lt (by omega)
  have he : F.e % 2 ^ 8 = F.e := Nat.mod_eq_of_lt (by omega)
  have hp : (valueResponse F v).rBits.toNat < 2 ^ (1 + F.m + F.e) := by
    rw [valueResponse_rBits, pack_toNat hF hv]; exact packNat_lt hv
  refine ⟨⟨fun h => absurd rfl h, Or.inr ⟨rfl, ?_, ?_⟩⟩, lt_of_lt_of_le hp (Nat.pow_le_pow_right (by decide) hw)⟩
  · simpa only [valueResponse_rM, valueResponse_rE, BitVec.toNat_ofNat, hm, he] using hF
  · simpa only [valueResponse_rM, valueResponse_rE, BitVec.toNat_ofNat, hm, he] using hp

/-- Every response of the block is well formed and fits the port. -/
theorem transact_wellFormed (q : Request) (d : NanDraw) :
    responseWellFormed (transact q d) ∧ (transact q d).rBits.toNat < 2 ^ Config.portWidth := by
  have err : ∀ c, responseWellFormed (errorResponse c) ∧ (errorResponse c).rBits.toNat < 2 ^ Config.portWidth := by
    intro c; simp [responseWellFormed]
  unfold transact
  split
  · rename_i i _
    have h := respond_shape i q d
    generalize respond i q d = r at h ⊢
    rcases h with c | w | ⟨F, v, hF, hv, -⟩
    · exact err c
    · simp [responseWellFormed]
    · exact valueResponse_wellFormed hF hv
  · exact err _

end Sys2Proof.Machine
end

