-- ==== Sys2Proof/Laws/Run.lean ====
section
/-! SUPPORT. Running the machine: one step at a time, and a run split in two. -/

namespace Sys2Proof.Machine

/-- A run begins with a step. -/
theorem run_succ {k : Nat} {s u : State} (h : step s = .next u) :
    Host.Core.run Sys2Proof.core (k + 1) s = Host.Core.run Sys2Proof.core k u := by
  have h' : Sys2Proof.core.step s = .next u := h
  simp only [Host.Core.run, h']

/-- Two runs one after the other are one run. -/
theorem run_add {a : Nat} (b : Nat) {s u : State} (h : Host.Core.run Sys2Proof.core a s = .next u) :
    Host.Core.run Sys2Proof.core (a + b) s = Host.Core.run Sys2Proof.core b u := by
  induction a generalizing s with
  | zero => simp only [Host.Core.run] at h; cases h; simp
  | succ a ih =>
    rw [Nat.add_right_comm]
    have hs : ∃ t, step s = .next t := by
      rcases step_cases s with ⟨_, e⟩ | ⟨_, _, _, e⟩ | ⟨_, _, _, e⟩ | ⟨_, _, _, e⟩ | ⟨_, _, _, e⟩ <;> exact ⟨_, e⟩
    obtain ⟨t, ht⟩ := hs
    rw [run_succ ht] at h ⊢
    exact ih h

/-- The host's drive of no reset goes on through an edge. -/
theorem hostDrives_rst {s : State} (h : s.pins.rst = false) (hd : ∀ p ∈ s.drive, p.rst = false) :
    (hostDrives s).pins.rst = false ∧ ∀ p ∈ (hostDrives s).drive, p.rst = false := by
  refine ⟨?_, fun p hp => hd p (mem_hostDrives_drive hp)⟩
  rcases hostDrives_pins s with e | e
  · rw [e, h]
  · exact hd _ e

end Sys2Proof.Machine
end

