-- ==== Sys2Proof/Tests/Slice0.lean ====
section
/-! SUPPORT. The model's own tests: ill-formed instructions, words written out from R63 and R66, vectors of
spec/95_test_vectors.md (each named in its comment), and a witness for the hypotheses of every statement. -/

namespace Sys2Proof.Tests

set_option Elab.async false

open Sys2Proof Sys2Proof.Machine

/-! ## Well-formedness: each check refuses an ill-formed instruction -/

theorem test_wf_mantissa_field : (Instr.fcast ⟨65536, 8⟩).wellFormed = false := by decide
theorem test_wf_exponent_field : (Instr.fcast ⟨23, 256⟩).wellFormed = false := by decide
theorem test_wf_fcvtXF64 : (Instr.fcvtXF64 ⟨65536, 8⟩).wellFormed = false := by decide
theorem test_wf_fsetzero : (Instr.fsetzero ⟨23, 256⟩).wellFormed = false := by decide
theorem test_wf_fsetinf : (Instr.fsetinf ⟨65536, 8⟩ true).wellFormed = false := by decide
theorem test_wf_fsetnan : (Instr.fsetnan ⟨23, 256⟩).wellFormed = false := by decide

/-! ## Decoding: words written out from `tttttttt mmmmmmmmmmmmmmmm rr g ooooo` (R63) and the table of R66 -/

theorem test_dec_fadd : decode 0b00000000000000000000000000000001#32 = .ok .fadd := by decide
theorem test_dec_fsub : decode 0b00000000000000000000000000000010#32 = .ok .fsub := by decide
theorem test_dec_fmul : decode 0b00000000000000000000000000000011#32 = .ok .fmul := by decide
theorem test_dec_fdiv : decode 0b00000000000000000000000000000100#32 = .ok .fdiv := by decide
theorem test_dec_feq : decode 0b00000000000000000000000000001000#32 = .ok .feq := by decide
theorem test_dec_fne : decode 0b00000000000000000000000000001001#32 = .ok .fne := by decide
theorem test_dec_flt : decode 0b00000000000000000000000000001010#32 = .ok .flt := by decide
theorem test_dec_fle : decode 0b00000000000000000000000000001011#32 = .ok .fle := by decide
theorem test_dec_fgt : decode 0b00000000000000000000000000001100#32 = .ok .fgt := by decide
theorem test_dec_fge : decode 0b00000000000000000000000000001101#32 = .ok .fge := by decide
/-- `FCAST a, (52, 11)` (R71). -/
theorem test_dec_fcast : decode 0b00001011000000000011010000010000#32 = .ok (.fcast ⟨52, 11⟩) := by decide
/-- `FCVT.X.F64 w, (23, 8)` (R71). -/
theorem test_dec_fcvtXF64 : decode 0b00001000000000000001011100010001#32 = .ok (.fcvtXF64 ⟨23, 8⟩) := by decide
theorem test_dec_fcvtF64X : decode 0b00000000000000000000000000010010#32 = .ok .fcvtF64X := by decide
theorem test_dec_fclass : decode 0b00000000000000000000000000011000#32 = .ok .fclass := by decide
/-- `FSETZERO (1, 2)` with `sg = 1`, which it ignores (CVT-37, CVT-38). -/
theorem test_dec_fsetzero : decode 0b00000010000000000000000100111001#32 = .ok (.fsetzero ⟨1, 2⟩) := by decide
/-- `FSETINF (23, 8), 1` (R71). -/
theorem test_dec_fsetinf : decode 0b00001000000000000001011100111010#32 = .ok (.fsetinf ⟨23, 8⟩ true) := by decide
/-- `FSETNAN (1, 2)` (R71). -/
theorem test_dec_fsetnan : decode 0b00000010000000000000000100011011#32 = .ok (.fsetnan ⟨1, 2⟩) := by decide
/-- The widest fields: `tm` and `te` are not swapped. -/
theorem test_dec_wide_fields : decode 0b11111110111111111111111100010000#32 = .ok (.fcast ⟨65535, 254⟩) := by decide
/-- The all-zero word is illegal (R67). -/
theorem test_dec_zero : decode 0#32 = .error (.reservedOpcode 0#5) := by decide
/-- FADD with `rsv = 01` (ERR-06). -/
theorem test_dec_rsv : decode 0x41#32 = .error (.reservedField 1#2) := by decide

/-! ## One step from a completing state -/

/-- An operand port with the literal `(m,e):0xV`. -/
def lit (m e v : Nat) : Operand := ⟨BitVec.ofNat 16 m, BitVec.ofNat 8 e, BitVec.ofNat portBits v⟩

/-- The state in which a request's transaction completes at the coming edge. -/
def due (cmd : Cmd) (a b : Operand) (w : BitVec 64) : State :=
  { State.reset with lq := ⟨cmd, a, b, w⟩, busy := true, edgesLeft := 1 }

/-- The response after one step, as numbers: `R_ERR`, `R_M`, `R_E`, `R_BITS`, `R_WORD`. -/
def answerOf (s : State) : Option (Nat × Nat × Nat × Nat × Nat) :=
  match step s with
  | .next t =>
    if t.done && !t.busy then
      some (t.resp.rErr.toNat, t.resp.rM.toNat, t.resp.rE.toNat, t.resp.rBits.toNat, t.resp.rWord.toNat)
    else none
  | .fault _ => none
  | .refused _ => none

/-- No operand. -/
def no : Operand := lit 0 0 0

/-- ADD-07: a tie at the largest value rounds up to the infinity. -/
theorem test_fadd_tie_overflow :
    answerOf (due 0x01#32 (lit 23 8 0x7F7FFFFF) (lit 23 8 0x73000000) 0#64) = some (0, 23, 8, 0x7F800000, 0) := by
  decide +kernel
/-- ERR-09: FADD ignores `sg`, `tm` and `te`. -/
theorem test_fadd_unread_fields :
    answerOf (due 0xFFFFFF21#32 (lit 23 8 0x3F800000) (lit 23 8 0x3F800000) 0#64) =
      some (0, 23, 8, 0x40000000, 0) := by decide +kernel
/-- ADD-29: a far operand of the other sign gives the predecessor. -/
theorem test_fsub_far_operand :
    answerOf (due 0x02#32 (lit 23 8 0x3F800000) (lit 23 8 0x33000001) 0#64) = some (0, 23, 8, 0x3F7FFFFF, 0) := by
  decide +kernel
/-- ADD-25: a subnormal difference is flushed. -/
theorem test_fsub_flush :
    answerOf (due 0x02#32 (lit 23 8 0x00800001) (lit 23 8 0x00800000) 0#64) = some (0, 23, 8, 0, 0) := by
  decide +kernel
/-- MUL-10: a product that rounds below the smallest NORMAL value keeps its sign as a zero. -/
theorem test_fmul_flush :
    answerOf (due 0x03#32 (lit 23 8 0x3F7FFFFF) (lit 23 8 0x80800000) 0#64) = some (0, 23, 8, 0x80000000, 0) := by
  decide +kernel
/-- ERR-17: the formats (23, 8) and (23, 7) differ. -/
theorem test_fmul_mismatch :
    answerOf (due 0x03#32 (lit 23 8 0x3F800000) (lit 23 7 0) 0#64) = some (2, 0, 0, 0, 0) := by decide +kernel
/-- MUL-39: 1 / 3 at (52, 11). -/
theorem test_fdiv_third :
    answerOf (due 0x04#32 (lit 52 11 0x3FF0000000000000) (lit 52 11 0x4008000000000000) 0#64) =
      some (0, 52, 11, 0x3FD5555555555555, 0) := by decide +kernel
/-- MUL-47: 3 / -1.5 at (1, 2). -/
theorem test_fdiv_narrow :
    answerOf (due 0x04#32 (lit 1 2 0x5) (lit 1 2 0xB) 0#64) = some (0, 1, 2, 0xC, 0) := by decide +kernel
/-- CMP-04: +0 equals -0. -/
theorem test_feq_zeros :
    answerOf (due 0x08#32 (lit 23 8 0) (lit 23 8 0x80000000) 0#64) = some (0, 0, 0, 0, 1) := by decide +kernel
/-- CMPE-06: a non-canonical -0 equals +0. -/
theorem test_feq_noncanonical :
    answerOf (due 0x08#32 (lit 1 2 0x9) (lit 1 2 0x0) 0#64) = some (0, 0, 0, 0, 1) := by decide +kernel
/-- CMPE-05: a NaN differs from itself. -/
theorem test_fne_nan :
    answerOf (due 0x09#32 (lit 1 2 0xF) (lit 1 2 0xF) 0#64) = some (0, 0, 0, 0, 1) := by decide +kernel
/-- CMP-08: -2 < -1. -/
theorem test_flt_negative :
    answerOf (due 0x0A#32 (lit 23 8 0xC0000000) (lit 23 8 0xBF800000) 0#64) = some (0, 0, 0, 0, 1) := by
  decide +kernel
/-- CMP-09: -Inf <= the largest value. -/
theorem test_fle_infinity :
    answerOf (due 0x0B#32 (lit 23 8 0xFF800000) (lit 23 8 0x7F7FFFFF) 0#64) = some (0, 0, 0, 0, 1) := by
  decide +kernel
/-- CMPE-07: a non-canonical +0 is not greater than -0. -/
theorem test_fgt_zeros :
    answerOf (due 0x0C#32 (lit 1 2 0x1) (lit 1 2 0x8) 0#64) = some (0, 0, 0, 0, 0) := by decide +kernel
/-- CMPE-04: NaN >= 1 is false. -/
theorem test_fge_nan :
    answerOf (due 0x0D#32 (lit 1 2 0xF) (lit 1 2 0x2) 0#64) = some (0, 0, 0, 0, 0) := by decide +kernel
/-- CAST-09: a tie that rounds up to the smallest NORMAL value. -/
theorem test_fcast_tie :
    answerOf (due 0x08001710#32 (lit 52 11 0x380FFFFFF0000000) no 0#64) = some (0, 23, 8, 0x00800000, 0) := by
  decide +kernel
/-- CAST-17: the identity cast keeps a NaN's payload. -/
theorem test_fcast_identity :
    answerOf (due 0x08001710#32 (lit 23 8 0xFFC00001) no 0#64) = some (0, 23, 8, 0xFFC00001, 0) := by decide +kernel
/-- CVT-02: 0.1 at (23, 8). -/
theorem test_fcvtXF64_tenth :
    answerOf (due 0x08001711#32 no no 0x3FB999999999999A#64) = some (0, 23, 8, 0x3DCCCCCD, 0) := by decide +kernel
/-- RT-07: a binary64 value below the smallest NORMAL value of (23, 8). -/
theorem test_fcvtXF64_flush :
    answerOf (due 0x08001711#32 no no 0x36A0000000000000#64) = some (0, 23, 8, 0, 0) := by decide +kernel
/-- CAST-37: -2^-126 as a binary64 word. -/
theorem test_fcvtF64X_smallest :
    answerOf (due 0x12#32 (lit 23 8 0x80800000) no 0#64) = some (0, 0, 0, 0, 0xB810000000000000) := by decide +kernel
/-- ERR-15: an invalid operand tag. -/
theorem test_fcvtF64X_invalid :
    answerOf (due 0x12#32 no (lit 23 8 0x3F800000) 0#64) = some (1, 0, 0, 0, 0) := by decide +kernel
/-- CVT-30: a NaN with sign 1. -/
theorem test_fclass_nan :
    answerOf (due 0x18#32 (lit 23 8 0xFFC00001) no 0#64) = some (0, 0, 0, 0, 4) := by decide +kernel
/-- CVT-33: a non-canonical -0; B's invalid tag is not read (ERR-14). -/
theorem test_fclass_noncanonical :
    answerOf (due 0x18#32 (lit 1 2 0x9) no 0#64) = some (0, 0, 0, 0, 1) := by decide +kernel
/-- CVT-37, ERR-13: `sg` and the operands' invalid tags are ignored. -/
theorem test_fsetzero :
    answerOf (due 0x08001739#32 no no 0#64) = some (0, 23, 8, 0, 0) := by decide +kernel
/-- ERR-12: an invalid target. -/
theorem test_fsetzero_invalid : answerOf (due 0x19#32 no no 0#64) = some (1, 0, 0, 0, 0) := by decide +kernel
/-- CVT-41: -Inf at (52, 11). -/
theorem test_fsetinf :
    answerOf (due 0x0B00343A#32 no no 0#64) = some (0, 52, 11, 0xFFF0000000000000, 0) := by decide +kernel
/-- CVT-44: FSETNAN ignores `sg`. -/
theorem test_fsetnan :
    answerOf (due 0x0800173B#32 no no 0#64) = some (0, 23, 8, 0x7FC00000, 0) := by decide +kernel
/-- ERR-08: IllegalOperation comes before an invalid operand. -/
theorem test_illegal_first :
    answerOf (due 0x40#32 no (lit 23 8 0x3F800000) 0#64) = some (3, 0, 0, 0, 0) := by decide +kernel
/-- `withFetchWord` after reset: the very next step decodes and runs the word (FSETNAN (1, 2), R71). -/
theorem test_withFetchWord :
    answerOf (State.reset.withFetchWord 32 0x0200011B) = some (0, 1, 2, 7, 0) := by decide +kernel
/-- The host's question on the same word. -/
theorem test_decodeTableWord : decodeTableWord 32 0x0200011B = some (.fsetnan ⟨1, 2⟩) := by decide

/-! ## A witness for the hypotheses of every statement that has some -/

/-- 1.0 at (23, 8), and a NORMAL value, an infinity, a NaN and a zero of (1, 2). -/
def one : Operand := lit 23 8 0x3F800000

/-- FADD 1.0, 1.0 at (23, 8), due at the coming edge. -/
def addDue : State := due 0x01#32 one one 0#64

/-- A request for it on the pins of an idle block. -/
def addOffered : State := { State.reset with pins := ⟨false, true, addDue.lq⟩ }

/-- A block that answered an earlier request and is idle. -/
def answered : State := { State.reset with done := true, resp := valueResponse ⟨23, 8⟩ ⟨false, 127, 0⟩, lq := addDue.lq }

theorem witness_ResetEdgeClearsBlock : ({ addDue with pins := ⟨true, true, addDue.lq⟩ } : State).pins.rst = true := rfl

theorem witness_StartIsAcceptedIdleAndIgnoredBusy_idle :
    addOffered.pins.rst = false ∧ addOffered.pins.start = true ∧ addOffered.busy = false := ⟨rfl, rfl, rfl⟩

theorem witness_StartIsAcceptedIdleAndIgnoredBusy_busy :
    ({ addDue with pins := addOffered.pins } : State).pins.rst = false ∧
      ({ addDue with pins := addOffered.pins } : State).pins.start = true ∧
      ({ addDue with pins := addOffered.pins } : State).busy = true := ⟨rfl, rfl, rfl⟩

theorem witness_BusyBlockIgnoresThePorts :
    addDue.busy = true ∧ addDue.pins.rst = false ∧ addOffered.pins.rst = false := ⟨rfl, rfl, rfl⟩

theorem witness_WaitingEdgeWritesNothing :
    ({ addDue with edgesLeft := 2 } : State).pins.rst = false ∧ ({ addDue with edgesLeft := 2 } : State).busy = true ∧
      1 < ({ addDue with edgesLeft := 2 } : State).edgesLeft := by decide

theorem witness_IdleEdgeKeepsTheResponse :
    answered.pins.rst = false ∧ answered.pins.start = false ∧ answered.busy = false := ⟨rfl, rfl, rfl⟩

/-- The completing case of the statement. -/
theorem witness_ResponseChangesOnlyAtCompletion :
    ∃ t, step (due 0x0200011B#32 no no 0#64) = .next t ∧ t.resp ≠ (due 0x0200011B#32 no no 0#64).resp :=
  ⟨_, rfl, fun h => absurd (congrArg Response.rM h) (by decide +kernel)⟩

/-- The reset case of the statement. -/
theorem witness_ResponseChangesOnlyAtCompletion_reset :
    ∃ t, step { answered with pins := ⟨true, false, zeroRequest⟩ } = .next t ∧ t.resp ≠ answered.resp :=
  ⟨_, rfl, fun h => absurd (congrArg Response.rM h) (by decide +kernel)⟩

theorem witness_CompletingStepRunsTheDecodedInstruction :
    completing addDue ∧ decode addDue.lq.cmd = .ok .fadd := ⟨⟨rfl, rfl, by decide⟩, by decide⟩

theorem witness_IllegalCommandReportsCodeThree_opcode :
    completing (due 0x1F#32 one one 0#64) ∧ (opcOf (due 0x1F#32 one one 0#64).lq.cmd).toNat = 0x1F :=
  ⟨⟨rfl, rfl, by decide⟩, by decide⟩

theorem witness_IllegalCommandReportsCodeThree_field :
    completing (due 0x41#32 one one 0#64) ∧ rsvOf (due 0x41#32 one one 0#64).lq.cmd ≠ 0#2 :=
  ⟨⟨rfl, rfl, by decide⟩, by decide⟩

theorem witness_EveryAcceptedTransactionCompletes :
    noReset addOffered ∧ addOffered.pins.start = true ∧ addOffered.busy = false ∧
      (∃ k, 1 ≤ k ∧ k ≤ Config.latency addOffered.pins.req) :=
  ⟨⟨rfl, by simp [addOffered, State.reset]⟩, rfl, rfl, 1, le_refl _, by simp [Config.latency]⟩

/-- A state in the middle of a transaction, not the reset state. -/
theorem witness_StepKeepsHandshakeInvariant : HandshakeInv addDue ∧ ∃ t, step addDue = .next t :=
  ⟨⟨fun _ => rfl, by decide, by simp [addDue, due, Config.latency],
    ⟨fun h => absurd rfl h, .inl ⟨rfl, rfl, rfl⟩⟩, fun h => absurd h (by decide)⟩, _, rfl⟩

theorem witness_StepKeepsPortWidths : portsFit addDue ∧ ∃ t, step addDue = .next t := by
  have h : ∀ n : Nat, n < 2 ^ 64 → n < 2 ^ Config.portWidth := fun n hn =>
    lt_of_lt_of_le hn (Nat.pow_le_pow_right (by decide) (by unfold Config.portWidth Config.mMax Config.eMax; omega))
  refine ⟨⟨⟨h _ ?_, h _ ?_⟩, fun p hp => absurd hp (by simp [addDue, due, State.reset]), ⟨h _ ?_, h _ ?_⟩, h _ ?_⟩, _, rfl⟩ <;>
    decide +kernel

theorem witness_StepKeepsResponseOfRequest :
    responseOfRequest { addDue with busy := false, done := true, resp := transact addDue.lq ⟨false, 0⟩ } ∧
      ∃ t, step { addDue with busy := false, done := true, resp := transact addDue.lq ⟨false, 0⟩ } = .next t :=
  ⟨fun _ => ⟨⟨false, 0⟩, rfl⟩, _, rfl⟩

theorem witness_ResponseIgnoresEarlierTransactions :
    ∃ t t', addDue.lq = answered.lq ∧ addDue.draws = answered.draws ∧ addDue ≠ answered ∧
      exec .fadd addDue = .next t ∧ exec .fadd answered = .next t' :=
  ⟨_, _, rfl, rfl, fun h => absurd (congrArg State.busy h) (by decide), rfl, rfl⟩

/-- FADD of opposite infinities of (52, 11): two draws give two responses. -/
theorem witness_DrawIsVisibleOnlyForCancellingInfinities_fadd :
    respond .fadd ⟨0x01#32, lit 52 11 0x7FF0000000000000, lit 52 11 0xFFF0000000000000, 0#64⟩ ⟨false, 0⟩ ≠
      respond .fadd ⟨0x01#32, lit 52 11 0x7FF0000000000000, lit 52 11 0xFFF0000000000000, 0#64⟩ ⟨true, 7⟩ :=
  fun h => absurd (congrArg (fun r => r.rBits.toNat) h) (by decide +kernel)

/-- FSUB of equal infinities of (1, 2): the two NaNs of the format. -/
theorem witness_DrawIsVisibleOnlyForCancellingInfinities_fsub :
    respond .fsub ⟨0x02#32, lit 1 2 6, lit 1 2 6, 0#64⟩ ⟨false, 0⟩ ≠
      respond .fsub ⟨0x02#32, lit 1 2 6, lit 1 2 6, 0#64⟩ ⟨true, 0⟩ :=
  fun h => absurd (congrArg (fun r => r.rBits.toNat) h) (by decide +kernel)

theorem witness_DrawsAreExactlyTheNaNs :
    formatValid ⟨1, 2⟩ = true ∧ classOf ⟨1, 2⟩ ⟨true, 3, 1⟩ = .nan ∧ Value.inFormat ⟨1, 2⟩ ⟨true, 3, 1⟩ = true ∧
      drawnNaN ⟨1, 2⟩ ⟨true, 0⟩ = ⟨true, 3, 1⟩ := by decide +kernel

theorem witness_DecodeOfEncodeIsTheInstruction :
    Instr.fadd.wellFormed = true ∧ (Instr.fcast ⟨65535, 255⟩).wellFormed = true ∧
      (Instr.fsetinf ⟨0, 0⟩ true).wellFormed = true := by decide

theorem witness_UnreadFieldsAreIgnored_command :
    opcOf 0x01#32 = opcOf 0xFFFFFF21#32 ∧ rsvOf 0x01#32 = rsvOf 0xFFFFFF21#32 ∧
      targetOf 0x01#32 ≠ targetOf 0xFFFFFF21#32 ∧ sgOf 0x01#32 ≠ sgOf 0xFFFFFF21#32 ∧ targetRead .fadd = none ∧
      decode 0x01#32 = .ok .fadd := by decide

theorem witness_UnreadFieldsAreIgnored_ports :
    readsA .fclass = true ∧ readsB .fclass = false ∧ (⟨0x18#32, one, no, 1#64⟩ : Request).a = one ∧
      (⟨0x18#32, one, one, 2#64⟩ : Request).a = one ∧ one.m ≠ no.m := by decide +kernel

/-- The widest bits of the narrowest format. -/
theorem witness_UnpackOfPackIsTheValue :
    formatValid ⟨1, 2⟩ = true ∧ Value.inFormat ⟨1, 2⟩ ⟨true, 3, 1⟩ = true ∧
      Value.inFormat ⟨52, 11⟩ ⟨true, 2047, 2 ^ 52 - 1⟩ = true := by decide +kernel

/-- Two different port words that agree in the bits 3..0 of (1, 2). -/
theorem witness_HighPortBitsAreIgnored :
    (∀ j, j ≤ 1 + 2 → (BitVec.ofNat portBits 0x15).getLsbD j = (BitVec.ofNat portBits 0x05).getLsbD j) ∧
      (BitVec.ofNat portBits 0x15).toNat ≠ (BitVec.ofNat portBits 0x05).toNat := by decide +kernel

/-- The smallest and the largest NORMAL value of (23, 8). -/
theorem witness_NormalMagnitudesLieInTheFormatRange :
    formatValid ⟨23, 8⟩ = true ∧ Value.inFormat ⟨23, 8⟩ ⟨false, 1, 0⟩ = true ∧
      classOf ⟨23, 8⟩ ⟨false, 1, 0⟩ = .normal ∧ Value.inFormat ⟨23, 8⟩ ⟨true, 254, 2 ^ 23 - 1⟩ = true ∧
      classOf ⟨23, 8⟩ ⟨true, 254, 2 ^ 23 - 1⟩ = .normal := by decide +kernel

theorem witness_RoundPackKeepsNormalValues :
    formatValid ⟨1, 2⟩ = true ∧ Value.inFormat ⟨1, 2⟩ ⟨true, 2, 1⟩ = true ∧
      classOf ⟨1, 2⟩ ⟨true, 2, 1⟩ = .normal := by decide +kernel

theorem witness_RoundPackIsMonotone : formatValid ⟨1, 2⟩ = true ∧ (0 : ℚ) < 5 / 4 ∧ (5 / 4 : ℚ) ≤ 7 / 4 := by
  decide +kernel

/-- A tie: 5/2 lies halfway between 2 and 3 at (1, 2) (ADD-50). -/
theorem witness_RoundPackIsNearestTiesToEven :
    formatValid ⟨1, 2⟩ = true ∧ (0 : ℚ) < 5 / 2 ∧ Value.inFormat ⟨1, 2⟩ ⟨false, 2, 1⟩ = true ∧
      classOf ⟨1, 2⟩ ⟨false, 2, 1⟩ = .normal ∧ classOf ⟨1, 2⟩ (roundPack ⟨1, 2⟩ false (5 / 2)) = .normal ∧
      |(5 / 2 : ℚ) - mag ⟨1, 2⟩ (roundPack ⟨1, 2⟩ false (5 / 2))| = |(5 / 2 : ℚ) - mag ⟨1, 2⟩ ⟨false, 2, 1⟩| ∧
      mag ⟨1, 2⟩ ⟨false, 2, 1⟩ ≠ mag ⟨1, 2⟩ (roundPack ⟨1, 2⟩ false (5 / 2)) := by decide +kernel

/-- The threshold of (1, 2) is 7/2: it overflows and 13/4 does not. -/
theorem witness_RoundPackOverflowThreshold :
    formatValid ⟨1, 2⟩ = true ∧ (0 : ℚ) < 7 / 2 ∧ roundPack ⟨1, 2⟩ false (7 / 2) = infV ⟨1, 2⟩ false ∧
      roundPack ⟨1, 2⟩ false (13 / 4) ≠ infV ⟨1, 2⟩ false := by decide +kernel

/-- The threshold of (1, 2) is 7/8: it is kept and 3/4 is flushed. -/
theorem witness_RoundPackUnderflowThreshold :
    formatValid ⟨1, 2⟩ = true ∧ (0 : ℚ) < 3 / 4 ∧ roundPack ⟨1, 2⟩ true (3 / 4) = zeroV ⟨1, 2⟩ true ∧
      roundPack ⟨1, 2⟩ true (7 / 8) ≠ zeroV ⟨1, 2⟩ true := by decide +kernel

theorem witness_RoundPackAnswersCanonicalValues : formatValid ⟨1, 2⟩ = true ∧ (0 : ℚ) < 1 / 1024 := by decide +kernel

/-- For FADD, FSUB, FMUL, FDIV and the six comparisons: latched operands of one valid format, here (1, 2). -/
theorem witness_sameFormat (x y : Fin 16) :
    sameFormat ⟨1, 2⟩ (due 0x01#32 (lit 1 2 x) (lit 1 2 y) 0#64).lq := ⟨rfl, rfl, by decide +kernel⟩

/-- The hypothesis of the two-operand statements at (23, 8). -/
theorem witness_sameFormat_binary32 : sameFormat ⟨23, 8⟩ addDue.lq := ⟨rfl, rfl, by decide +kernel⟩

/-- Every class that the clauses of SumRule, ProductRule, QuotientRule and CastRule name is the class of some word of
(1, 2): both zeros, NORMAL values of both signs, both infinities and a NaN. -/
theorem witness_classes :
    (classOf ⟨1, 2⟩ (unpack ⟨1, 2⟩ (lit 1 2 0x0).bits) = .zero ∧ (unpack ⟨1, 2⟩ (lit 1 2 0x0).bits).s = false) ∧
    (classOf ⟨1, 2⟩ (unpack ⟨1, 2⟩ (lit 1 2 0x9).bits) = .zero ∧ (unpack ⟨1, 2⟩ (lit 1 2 0x9).bits).s = true) ∧
    (classOf ⟨1, 2⟩ (unpack ⟨1, 2⟩ (lit 1 2 0x2).bits) = .normal ∧ (unpack ⟨1, 2⟩ (lit 1 2 0x2).bits).s = false) ∧
    (classOf ⟨1, 2⟩ (unpack ⟨1, 2⟩ (lit 1 2 0xD).bits) = .normal ∧ (unpack ⟨1, 2⟩ (lit 1 2 0xD).bits).s = true) ∧
    (classOf ⟨1, 2⟩ (unpack ⟨1, 2⟩ (lit 1 2 0x6).bits) = .inf ∧ (unpack ⟨1, 2⟩ (lit 1 2 0x6).bits).s = false) ∧
    (classOf ⟨1, 2⟩ (unpack ⟨1, 2⟩ (lit 1 2 0xE).bits) = .inf ∧ (unpack ⟨1, 2⟩ (lit 1 2 0xE).bits).s = true) ∧
    classOf ⟨1, 2⟩ (unpack ⟨1, 2⟩ (lit 1 2 0x7).bits) = .nan := by decide +kernel

/-- The finite clause of SumRule: operands with the sums 0, -1 and 1/2 at (1, 2). -/
theorem witness_SumRule_finite :
    ext ⟨1, 2⟩ ⟨false, 1, 0⟩ = .fin 1 ∧ ext ⟨1, 2⟩ ⟨true, 1, 0⟩ = .fin (-1) ∧ ext ⟨1, 2⟩ ⟨true, 2, 0⟩ = .fin (-2) ∧
      ext ⟨1, 2⟩ ⟨false, 1, 1⟩ = .fin (3 / 2) := by decide +kernel

theorem witness_FsubIsFaddWithBSignBitInverted :
    ∃ t u, sameFormat (tagOf addDue.lq.a) addDue.lq ∧ exec .fsub addDue = .next t ∧
      exec .fadd { addDue with lq := { addDue.lq with b := { addDue.lq.b with
        bits := addDue.lq.b.bits ^^^ BitVec.twoPow portBits (addDue.lq.b.m.toNat + addDue.lq.b.e.toNat) } } } =
        .next u := ⟨_, _, ⟨rfl, rfl, by decide +kernel⟩, rfl, rfl⟩

/-- Opposite zeros are one of the pairs that commute (ADD-12, ADD-13). -/
theorem witness_FaddCommutes :
    ¬(classOf (tagOf (lit 23 8 0)) (valueOf (lit 23 8 0)) = .inf ∧
      classOf (tagOf (lit 23 8 0x80000000)) (valueOf (lit 23 8 0x80000000)) = .inf ∧
      (valueOf (lit 23 8 0)).s ≠ (valueOf (lit 23 8 0x80000000)).s) := by decide +kernel

/-- ADD-29's operands: 1 and the value with exponent field 102 and mantissa 1. -/
theorem witness_FarOperandRoundsToThePredecessor :
    formatValid ⟨23, 8⟩ = true ∧ Value.inFormat ⟨23, 8⟩ ⟨false, 127, 0⟩ = true ∧
      Value.inFormat ⟨23, 8⟩ ⟨true, 102, 1⟩ = true ∧ classOf ⟨23, 8⟩ ⟨false, 127, 0⟩ = .normal ∧
      classOf ⟨23, 8⟩ ⟨true, 102, 1⟩ = .normal ∧ (127 : Nat) = 102 + 23 + 2 := by decide +kernel

theorem witness_FdivOfAValueByItselfIsOne :
    formatValid ⟨23, 8⟩ = true ∧ Value.inFormat ⟨23, 8⟩ ⟨true, 254, 1⟩ = true ∧
      classOf ⟨23, 8⟩ ⟨true, 254, 1⟩ = .normal := by decide +kernel

/-- Operands for each of the three outcomes of R158, and a NaN. -/
theorem witness_ComparePredicatesObeyTheirLaws :
    classOf ⟨1, 2⟩ ⟨false, 1, 0⟩ ≠ .nan ∧ classOf ⟨1, 2⟩ ⟨true, 3, 0⟩ ≠ .nan ∧ classOf ⟨1, 2⟩ ⟨true, 3, 1⟩ = .nan ∧
      fltHolds ⟨1, 2⟩ ⟨true, 3, 0⟩ ⟨false, 1, 0⟩ = true ∧ fgtHolds ⟨1, 2⟩ ⟨false, 1, 0⟩ ⟨true, 3, 0⟩ = true ∧
      feqHolds ⟨1, 2⟩ ⟨true, 0, 0⟩ ⟨false, 0, 0⟩ = true := by decide +kernel

/-- Canonical values of (1, 2) at the ends of the range: both zeros, both infinities, the NORMAL neighbours. -/
theorem witness_CompareOrderIsTheFieldOrder :
    formatValid ⟨1, 2⟩ = true ∧ ∀ v ∈ [(⟨false, 0, 0⟩ : Value), ⟨true, 0, 0⟩, ⟨false, 1, 0⟩, ⟨true, 2, 1⟩,
      ⟨false, 3, 0⟩, ⟨true, 3, 0⟩], v.inFormat ⟨1, 2⟩ = true ∧ classOf ⟨1, 2⟩ v ≠ .nan ∧ (v.x = 0 → v.f = 0) := by
  decide +kernel

/-- FCAST's hypotheses, the target the operand's own format and another. -/
theorem witness_FcastDeliversTheRoundedValue :
    formatValid (tagOf addDue.lq.a) = true ∧ formatValid ⟨23, 8⟩ = true ∧ formatValid ⟨1, 2⟩ = true ∧
      tagOf addDue.lq.a = ⟨23, 8⟩ := by decide +kernel

/-- A non-canonical zero and a NaN payload at the ports of the identity cast (CAST-16, CAST-17). -/
theorem witness_FcastToTheSameFormatKeepsEveryBit :
    formatValid (tagOf (due 0x08001710#32 (lit 23 8 5) no 0#64).lq.a) = true ∧
      formatValid (tagOf (due 0x08001710#32 (lit 23 8 0xFFC00001) no 0#64).lq.a) = true := by decide +kernel

theorem witness_WideningCastIsExact :
    formatValid ⟨23, 8⟩ = true ∧ formatValid ⟨52, 11⟩ = true ∧ (23 : Nat) ≤ 52 ∧ (8 : Nat) ≤ 11 ∧
      Value.inFormat ⟨23, 8⟩ ⟨true, 254, 2 ^ 23 - 1⟩ = true ∧ classOf ⟨23, 8⟩ ⟨true, 254, 2 ^ 23 - 1⟩ = .normal := by
  decide +kernel

/-- A canonical infinity, a non-canonical zero and a NaN of (23, 8) for the three clauses. -/
theorem witness_WidenThenNarrowIsTheIdentity :
    formatValid ⟨23, 8⟩ = true ∧ formatValid ⟨52, 11⟩ = true ∧ Value.inFormat ⟨23, 8⟩ ⟨true, 255, 0⟩ = true ∧
      classOf ⟨23, 8⟩ ⟨true, 255, 0⟩ ≠ .nan ∧ Value.inFormat ⟨23, 8⟩ ⟨true, 0, 5⟩ = true ∧
      classOf ⟨23, 8⟩ ⟨true, 0, 5⟩ = .zero ∧ Value.inFormat ⟨23, 8⟩ ⟨false, 255, 1⟩ = true ∧
      classOf ⟨23, 8⟩ ⟨false, 255, 1⟩ = .nan := by decide +kernel

theorem witness_FcvtF64XDeliversTheBinary64Word : formatValid (tagOf addDue.lq.a) = true := by decide +kernel

/-- One binary64 word for each clause: NaN, infinity, zero, the largest subnormal, the smallest normal word. -/
theorem witness_FcvtXF64DeliversTheConvertedWord :
    formatValid ⟨23, 8⟩ = true ∧
      ((0xFFF8000000000000#64).extractLsb' 52 11).toNat = 2047 ∧ ((0xFFF8000000000000#64).extractLsb' 0 52).toNat ≠ 0 ∧
      ((0x7FF0000000000000#64).extractLsb' 52 11).toNat = 2047 ∧ ((0x7FF0000000000000#64).extractLsb' 0 52).toNat = 0 ∧
      ((0x000FFFFFFFFFFFFF#64).extractLsb' 52 11).toNat = 0 ∧ ((0x000FFFFFFFFFFFFF#64).extractLsb' 0 52).toNat ≠ 0 ∧
      ((0x0010000000000000#64).extractLsb' 52 11).toNat = 1 := by decide +kernel

/-- -0.0 and the largest finite word meet both conditions (RT-02, RT-04). -/
theorem witness_Binary64RoundTripIsExact :
    (¬(((0x8000000000000000#64).extractLsb' 52 11).toNat = 2047 ∧ ((0x8000000000000000#64).extractLsb' 0 52).toNat ≠ 0) ∧
      ¬(((0x8000000000000000#64).extractLsb' 52 11).toNat = 0 ∧ ((0x8000000000000000#64).extractLsb' 0 52).toNat ≠ 0)) ∧
    (¬(((0x7FEFFFFFFFFFFFFF#64).extractLsb' 52 11).toNat = 2047 ∧ ((0x7FEFFFFFFFFFFFFF#64).extractLsb' 0 52).toNat ≠ 0) ∧
      ¬(((0x7FEFFFFFFFFFFFFF#64).extractLsb' 52 11).toNat = 0 ∧ ((0x7FEFFFFFFFFFFFFF#64).extractLsb' 0 52).toNat ≠ 0)) := by
  decide +kernel

theorem witness_FclassDeliversTheClassBits :
    formatValid (tagOf (due 0x18#32 (lit 1 2 0x9) no 0#64).lq.a) = true := by decide +kernel

theorem witness_SettersDeliverTheSpecialValues : formatValid ⟨1, 2⟩ = true ∧ formatValid ⟨52, 11⟩ = true := by
  decide +kernel

/-- FADD of two non-canonical zeros of opposite sign (ADD-17): a value response with a zero. -/
theorem witness_NoNonCanonicalZeroIsProduced :
    ∃ t, exec .fadd (due 0x01#32 (lit 23 8 5) (lit 23 8 0x80400000) 0#64) = .next t ∧
      Instr.fadd ≠ .fcast ⟨23, 8⟩ ∧ t.resp.rM ≠ 0#16 ∧
      (unpack ⟨t.resp.rM.toNat, t.resp.rE.toNat⟩ t.resp.rBits).x = 0 :=
  ⟨_, rfl, by decide, by decide +kernel, by decide +kernel⟩

/-- A's tag, B's tag and the target, each invalid alone. -/
theorem witness_InvalidFormatsReportCodeOne :
    readsInvalidFormat .fclass (due 0x18#32 (lit 1 1 0) one 0#64).lq ∧
      readsInvalidFormat .fadd (due 0x01#32 one (lit 23 1 0) 0#64).lq ∧
      readsInvalidFormat (.fcast ⟨0, 11⟩) (due 0x0B000010#32 one one 0#64).lq :=
  ⟨.inl ⟨rfl, by decide +kernel⟩, .inr (.inl ⟨rfl, by decide +kernel⟩),
    .inr (.inr ⟨⟨0, 11⟩, rfl, by decide +kernel⟩)⟩

/-- Two valid formats that differ (ERR-16). -/
theorem witness_DifferentFormatsReportCodeTwo :
    ¬readsInvalidFormat .feq (due 0x08#32 one (lit 52 11 0x3FF0000000000000) 0#64).lq ∧
      readsMismatch .feq (due 0x08#32 one (lit 52 11 0x3FF0000000000000) 0#64).lq := by
  refine ⟨?_, rfl, rfl, by decide +kernel⟩
  rintro (⟨-, h⟩ | ⟨-, h⟩ | ⟨t, h, -⟩)
  · exact absurd h (by decide +kernel)
  · exact absurd h (by decide +kernel)
  · cases h

/-- Signalling-looking operands: a NaN and a non-canonical zero of one format. -/
theorem witness_NoOperandValueIsAnError :
    ¬readsInvalidFormat .fmul (due 0x03#32 (lit 23 8 0x7F800001) (lit 23 8 5) 0#64).lq ∧
      ¬readsMismatch .fmul (due 0x03#32 (lit 23 8 0x7F800001) (lit 23 8 5) 0#64).lq := by
  refine ⟨?_, fun h => h.2.2 (by decide +kernel)⟩
  rintro (⟨-, h⟩ | ⟨-, h⟩ | ⟨t, h, -⟩)
  · exact absurd h (by decide +kernel)
  · exact absurd h (by decide +kernel)
  · cases h

/-- An error of an operation, and an illegal command. -/
theorem witness_ErrorsCarryNoValue :
    completing (due 0x08#32 one (lit 52 11 0x3FF0000000000000) 0#64) ∧
      (respond .feq (due 0x08#32 one (lit 52 11 0x3FF0000000000000) 0#64).lq ⟨false, 0⟩).rErr ≠ 0#2 ∧
      completing (due 0#32 one one 0#64) :=
  ⟨⟨rfl, rfl, by decide⟩, by decide +kernel, ⟨rfl, rfl, by decide⟩⟩

/-- The error clauses of the statements about FADD to FGE: an invalid A, an invalid B, and two valid tags that
differ in one width (ADD-58, ADD-59, ERR-17). -/
theorem witness_PairErrors :
    formatValid (tagOf (due 0x01#32 (lit 0 8 0) one 0#64).lq.a) = false ∧
      formatValid (tagOf (due 0x01#32 one (lit 23 1 0) 0#64).lq.b) = false ∧
      formatValid (tagOf one) = true ∧ formatValid (tagOf (lit 23 7 0)) = true ∧ tagOf one ≠ tagOf (lit 23 7 0) := by
  decide +kernel

/-- The error clauses of the statements about one operand or a target: widths just below the least valid ones. -/
theorem witness_OperandErrors_TargetErrors :
    formatValid (tagOf (lit 1 1 0)) = false ∧ formatValid (tagOf (lit 0 2 0)) = false ∧
      formatValid ⟨0, 11⟩ = false ∧ formatValid ⟨52, 1⟩ = false ∧ formatValid ⟨65536, 8⟩ = false := by
  refine ⟨by decide +kernel, by decide +kernel, by decide +kernel, by decide +kernel, ?_⟩
  have := Config.mMaxAbove52.isLt
  have h : ¬65536 ≤ Config.mMax := by unfold Config.mMax; omega
  simp [formatValid, h]

theorem witness_DecodingSelectsTheRowOrRejects :
    decode 0x1F#32 = .error (.reservedOpcode 0x1F#5) ∧ decode 0x0B003410#32 = .ok (.fcast ⟨52, 11⟩) ∧
      targetRead (.fcast ⟨52, 11⟩) ≠ none := by decide

/-- A host's bindings: a value, a word, and none on an error (R70). -/
theorem test_bindResponse :
    bindResponse (fnew ⟨23, 8⟩) (valueResponse ⟨23, 8⟩ ⟨false, 0, 0⟩) ≠ none ∧
      bindResponse .feq (wordResponse 1#64) = some (.word 1#64) ∧
      bindResponse .feq (errorResponse .precisionMismatch) = none := by decide +kernel

end Sys2Proof.Tests
end

section
/-! What reset leaves, register by register (R32), and the settlement of the statement about the reset state. -/

namespace Sys2Proof.Machine

/-! `State.reset`: each register of the block after reset. -/

@[simp] theorem State.reset_busy : State.reset.busy = false := rfl
@[simp] theorem State.reset_done : State.reset.done = false := rfl
@[simp] theorem State.reset_lq : State.reset.lq = zeroRequest := rfl
@[simp] theorem State.reset_resp : State.reset.resp = zeroResponse := rfl

/-! `zeroResponse`, `zeroRequest` and `zeroOperand`: each field. -/

@[simp] theorem zeroResponse_rErr : zeroResponse.rErr = 0#2 := rfl
@[simp] theorem zeroResponse_rM : zeroResponse.rM = 0#16 := rfl
@[simp] theorem zeroResponse_rE : zeroResponse.rE = 0#8 := rfl
@[simp] theorem zeroResponse_rBits : zeroResponse.rBits = 0#portBits := rfl
@[simp] theorem zeroResponse_rWord : zeroResponse.rWord = 0#64 := rfl

@[simp] theorem zeroRequest_cmd : zeroRequest.cmd = 0#32 := rfl
@[simp] theorem zeroRequest_a : zeroRequest.a = zeroOperand := rfl
@[simp] theorem zeroRequest_b : zeroRequest.b = zeroOperand := rfl
@[simp] theorem zeroRequest_f64 : zeroRequest.f64 = 0#64 := rfl

@[simp] theorem zeroOperand_m : zeroOperand.m = 0#16 := rfl
@[simp] theorem zeroOperand_e : zeroOperand.e = 0#8 := rfl
@[simp] theorem zeroOperand_bits : zeroOperand.bits = 0#portBits := rfl

/-- A value port that holds zero reads as the number 0, whatever the container's width. -/
theorem zeroOperand_bits_toNat : zeroOperand.bits.toNat = 0 := by
  rw [zeroOperand_bits, BitVec.toNat_zero]

/-- The same for the response's value register. -/
theorem zeroResponse_rBits_toNat : zeroResponse.rBits.toNat = 0 := by
  rw [zeroResponse_rBits, BitVec.toNat_zero]

/-- Settles O1: `BUSY` and `DONE` are down, the response is `zeroResponse`, and `LQ` is `zeroRequest`, whose two
operands are `zeroOperand` (R32). -/
theorem resetStateIsAllZero : Obligations.ResetStateIsAllZero := by
  unfold Obligations.ResetStateIsAllZero
  rw [State.reset_lq, State.reset_resp, zeroRequest_a, zeroRequest_b]
  exact ⟨State.reset_busy, State.reset_done,
    zeroResponse_rErr, zeroResponse_rM, zeroResponse_rE, zeroResponse_rBits_toNat, zeroResponse_rWord,
    zeroRequest_cmd, zeroRequest_f64,
    zeroOperand_m, zeroOperand_e, zeroOperand_bits_toNat,
    zeroOperand_m, zeroOperand_e, zeroOperand_bits_toNat⟩

end Sys2Proof.Machine
end

section
/-! The decoder as a whole: which command words it rejects, and which words select a given instruction (R66 to R69). -/

namespace Sys2Proof

/-- The fifteen values of `opc` that select no row of R66 (R67). -/
def reservedOpcodes : List Nat :=
  [0x00, 0x05, 0x06, 0x07, 0x0E, 0x0F, 0x13, 0x14, 0x15, 0x16, 0x17, 0x1C, 0x1D, 0x1E, 0x1F]

/-- The instruction holds the given values in the command fields that its operation reads: the target format where it
reads one, and `sg` where it is FSETINF (R66, column "reads"). -/
def Instr.HoldsFields (i : Instr) (sg : Bool) (t : Format) : Prop :=
  (∀ t', Machine.targetRead i = some t' → t' = t) ∧ (∀ t' b, i = .fsetinf t' b → b = sg)

/-- The table of R66 has no row exactly for the reserved opcodes. -/
theorem decodeOpc_error_iff (opc : BitVec 5) (sg : Bool) (t : Format) :
    (∃ r, decodeOpc opc sg t = .error r) ↔ opc.toNat ∈ reservedOpcodes := by
  have hlt := opc.isLt
  unfold decodeOpc reservedOpcodes
  split
  case h_18 => -- no row has this number, so it is one of the others below 32
    simp only [Except.error.injEq, exists_eq', true_iff, List.mem_cons, List.not_mem_nil, or_false, imp_false] at *
    omega
  all_goals simp [*]

/-- Every instruction is read from its own opcode, and from the fields that its operation reads. -/
theorem decodeOpc_eq_ok_iff {opc : BitVec 5} {sg : Bool} {t : Format} {i : Instr} :
    decodeOpc opc sg t = .ok i ↔ opcodeOf i = opc ∧ i.HoldsFields sg t := by
  constructor
  · intro h
    have hrow : (opcodeOf i).toNat = opc.toNat ∧ i.HoldsFields sg t := by
      unfold decodeOpc at h
      split at h <;> cases h <;> simp [Instr.HoldsFields, Machine.targetRead, opcodeOf, *]
    exact hrow.imp_left BitVec.eq_of_toNat_eq
  · rintro ⟨rfl, ht, hs⟩
    cases i with
    | fadd | fsub | fmul | fdiv | feq | fne | flt | fle | fgt | fge | fcvtF64X | fclass => rfl
    | fcast t' | fcvtXF64 t' | fsetzero t' | fsetnan t' =>
      obtain rfl : t' = t := ht t' rfl
      rfl
    | fsetinf t' b =>
      obtain rfl : t' = t := ht t' rfl
      obtain rfl : b = sg := hs t' b rfl
      rfl

/-- A command word is illegal exactly when its `opc` is reserved or its `rsv` is not `00` (R67, R69). -/
theorem decode_error_iff (w : Cmd) :
    (∃ r, decode w = .error r) ↔ (opcOf w).toNat ∈ reservedOpcodes ∨ rsvOf w ≠ 0#2 := by
  unfold decode
  split
  next h => simpa [h] using decodeOpc_error_iff (opcOf w) (sgOf w) (targetOf w)
  next h => simp [h]

/-- The command words that select an instruction: only `rsv`, `opc` and the fields its operation reads count
(R66, R68). -/
theorem decode_eq_ok_iff {w : Cmd} {i : Instr} :
    decode w = .ok i ↔ rsvOf w = 0#2 ∧ opcodeOf i = opcOf w ∧ i.HoldsFields (sgOf w) (targetOf w) := by
  unfold decode
  split
  next h => simp [h, decodeOpc_eq_ok_iff]
  next h => simp [h]

/-- The fields an instruction holds, taken from another word that agrees on those its operation reads. -/
theorem Instr.HoldsFields.congr {i : Instr} {sg sg' : Bool} {t t' : Format} (h : i.HoldsFields sg t)
    (ht : Machine.targetRead i ≠ none → t = t') (hs : (∃ u b, i = .fsetinf u b) → sg = sg') :
    i.HoldsFields sg' t' := by
  obtain ⟨htarget, hsign⟩ := h
  refine ⟨fun u hu => ?_, fun u b hi => ?_⟩
  · rw [htarget u hu, ht (by simp [hu])]
  · rw [hsign u b hi, hs ⟨u, b, hi⟩]

end Sys2Proof
end

section
/-! The settlement of the statements about encoding: illegal commands, unread fields and the worked encodings. -/

namespace Sys2Proof.Machine

/-- An illegal command is answered before anything else is looked at (R67, R172). -/
theorem transact_of_decode_error {q : Request} {r : Illegal} (h : decode q.cmd = .error r) (d : NanDraw) :
    transact q d = errorResponse .illegalOperation := by
  simp [transact, h]

/-- An operation's response takes from the request only the ports in its column "reads" of R66, whatever the command
word (R68). -/
theorem respond_congr_of_reads {i : Instr} {q q' : Request} (d : NanDraw) (ha : readsA i = true → q.a = q'.a)
    (hb : readsB i = true → q.b = q'.b) (hw : (∃ t, i = .fcvtXF64 t) → q.f64 = q'.f64) :
    respond i q d = respond i q' d := by
  obtain ⟨cmd, a, b, w⟩ := q
  obtain ⟨cmd', a', b', w'⟩ := q'
  cases i with
  | fadd | fsub | fmul | fdiv | feq | fne | flt | fle | fgt | fge =>
    obtain rfl : a = a' := ha rfl
    obtain rfl : b = b' := hb rfl
    rfl
  | fcast | fcvtF64X | fclass =>
    obtain rfl : a = a' := ha rfl
    rfl
  | fcvtXF64 t =>
    obtain rfl : w = w' := hw ⟨t, rfl⟩
    rfl
  | fsetzero | fsetinf | fsetnan => rfl

/-- Settles O9: the decoder rejects the word, so the completing edge delivers the error's response (R67, R172). -/
theorem illegalCommandReportsCodeThree : Obligations.IllegalCommandReportsCodeThree := by
  unfold Obligations.IllegalCommandReportsCodeThree
  rintro s ⟨hrst, hbusy, hedges⟩ hillegal
  obtain ⟨r, hr⟩ := (decode_error_iff s.lq.cmd).mpr hillegal
  refine ⟨_, step_completing hrst hbusy hedges, ?_, complete_busy _ _, complete_done _ _, ?_⟩
  · rw [complete_resp, transact_of_decode_error hr]
    rfl
  · rw [complete_lq, hostDrives_lq]

/-- Settles O20: the words that select an instruction are told by `rsv`, `opc` and the fields it reads
(`decode_eq_ok_iff`), its response by the ports it reads (`respond_congr_of_reads`) (R68). -/
theorem unreadFieldsAreIgnored : Obligations.UnreadFieldsAreIgnored := by
  unfold Obligations.UnreadFieldsAreIgnored
  refine ⟨fun w w' i hopc hrsv ht hs hw => ?_, fun i q q' d ha hb hf => respond_congr_of_reads d ha hb hf⟩
  obtain ⟨hrsv0, hi, hfields⟩ := decode_eq_ok_iff.mp hw
  exact decode_eq_ok_iff.mpr ⟨hrsv ▸ hrsv0, hi.trans hopc, hfields.congr ht hs⟩

/-- Settles O21: five fixed words, encoded and decoded, and one word with every unread field all ones (R71). -/
theorem workedEncodings : Obligations.WorkedEncodings := by
  unfold Obligations.WorkedEncodings
  decide

end Sys2Proof.Machine
end

section
/-! Operations that read one format: their check and their completion (R170, R174 to R176). -/

namespace Sys2Proof.Machine

/-- A transaction that completes with `r` has delivered `r`, and no other field of the state differs. -/
theorem complete_eq_delivered (r : Response) (s : State) : complete r s = Statements.delivered s r := rfl

/-- An operation whose response stands behind the check of one format delivers it when the format is valid (R170). -/
theorem exec_of_checkFormat {i : Instr} {s : State} {F : Format} {r : Response}
    (hi : respond i s.lq (currentDraw s) = answer (checkFormat F) r) (hF : formatValid F = true) :
    exec i s = .next (Statements.delivered s r) := by
  rw [exec_eq, hi, checkFormat_eq_none.mpr hF, answer_none, complete_eq_delivered]

/-- The check of an invalid format reports InvalidPrecision (R175). -/
theorem checkFormat_eq_some {F : Format} (hF : formatValid F = false) :
    checkFormat F = some .invalidPrecision := by
  simp [checkFormat, hF]

/-- The same operation delivers the error InvalidPrecision when the format is not valid (R170, R175). -/
theorem exec_of_checkFormat_invalid {i : Instr} {s : State} {F : Format} {r : Response}
    (hi : respond i s.lq (currentDraw s) = answer (checkFormat F) r) (hF : formatValid F = false) :
    exec i s = .next (Statements.delivered s (Statements.errorOf 1#2)) := by
  rw [exec_eq, hi, checkFormat_eq_some hF, answer_some, complete_eq_delivered]
  rfl

end Sys2Proof.Machine
end

section
/-! FCLASS: the class bits, one by one, and the settlement of the statement about it (R112). -/

namespace Sys2Proof.Machine

theorem classWord_getLsbD_zero (F : Format) (v : Value) :
    (classWord F v).getLsbD 0 = decide (classOf F v = .zero) := by
  simp only [classWord, BitVec.getLsbD_setWidth, BitVec.getLsbD_append]
  simp

theorem classWord_getLsbD_one (F : Format) (v : Value) :
    (classWord F v).getLsbD 1 = decide (classOf F v = .inf) := by
  simp only [classWord, BitVec.getLsbD_setWidth, BitVec.getLsbD_append]
  simp

theorem classWord_getLsbD_two (F : Format) (v : Value) :
    (classWord F v).getLsbD 2 = decide (classOf F v = .nan) := by
  simp only [classWord, BitVec.getLsbD_setWidth, BitVec.getLsbD_append]
  simp

theorem classWord_getLsbD_three (F : Format) (v : Value) : (classWord F v).getLsbD 3 = !v.s := by
  simp only [classWord, BitVec.getLsbD_setWidth, BitVec.getLsbD_append]
  simp

/-- Nothing stands above the four class bits. -/
theorem classWord_toNat_lt (F : Format) (v : Value) : (classWord F v).toNat < 16 := by
  unfold classWord
  rw [BitVec.toNat_setWidth]
  exact (Nat.mod_le _ _).trans_lt (BitVec.isLt _)

/-- The sign of an operand is bit `m + e` of its port (R61). -/
theorem valueOf_s (p : Operand) : (valueOf p).s = p.bits.getLsbD (p.m.toNat + p.e.toNat) := rfl

/-- Settles O51: FCLASS answers the class word of A behind the check of A's format; its bits are read off one by
one (R112, R175). -/
theorem fclassDeliversTheClassBits : Obligations.FclassDeliversTheClassBits := by
  unfold Obligations.FclassDeliversTheClassBits
  refine ⟨fun _ _ => rfl, fun s => ⟨exec_of_checkFormat_invalid rfl, fun hA =>
    ⟨classWord (tagOf s.lq.a) (valueOf s.lq.a), exec_of_checkFormat rfl hA, ?_, ?_, ?_, ?_, classWord_toNat_lt _ _⟩⟩⟩
  · rw [classWord_getLsbD_zero, decide_eq_true_iff]
  · rw [classWord_getLsbD_one, decide_eq_true_iff]
  · rw [classWord_getLsbD_two, decide_eq_true_iff]
  · rw [classWord_getLsbD_three, Bool.not_eq_true', valueOf_s]

end Sys2Proof.Machine
end

section
/-! FSETZERO, FSETINF and FSETNAN: the special values as numbers on a port, and the settlement of the statement about
the three setters (R113 to R115). -/

namespace Sys2Proof.Machine

/-- `+0` is all zeros on a port (R61, R105). -/
theorem pack_zeroV_false (F : Format) : pack F (zeroV F false) = 0#portBits := by
  simp [pack, packNat, zeroV]

/-- An infinity on a port: the sign bit and the exponent field all ones (R61, R105). -/
theorem pack_infV_toNat {F : Format} (hF : formatValid F = true) (s : Bool) :
    (pack F (infV F s)).toNat = (if s then 2 ^ (F.m + F.e) else 0) + (2 ^ F.e - 1) * 2 ^ F.m := by
  rw [pack_toNat hF (inFormat_infV F s)]
  cases s <;> simp [packNat, infV, onesExp]

/-- The canonical NaN of sign 0 on a port: the exponent field all ones and the top mantissa bit (R61, R104). -/
theorem pack_qNaN_false_toNat {F : Format} (hF : formatValid F = true) :
    (pack F (qNaN F false)).toNat = (2 ^ F.e - 1) * 2 ^ F.m + 2 ^ (F.m - 1) := by
  rw [pack_toNat hF (inFormat_qNaN (formatValid_bounds hF).1 false)]
  simp [packNat, qNaN, onesExp]

/-- FSETZERO of a valid target delivers the target and a port of zeros (R113). -/
theorem exec_fsetzero {T : Format} (hT : formatValid T = true) (s : State) :
    exec (.fsetzero T) s =
      .next (Statements.delivered s ⟨0#2, BitVec.ofNat 16 T.m, BitVec.ofNat 8 T.e, 0#portBits, 0#64⟩) := by
  rw [exec_of_checkFormat rfl hT, ← pack_zeroV_false T]
  rfl

/-- Settles O52: each setter answers its special value behind the check of the target, and the value's number on the
port is known (R113, R114, R115). -/
theorem settersDeliverTheSpecialValues : Obligations.SettersDeliverTheSpecialValues := by
  unfold Obligations.SettersDeliverTheSpecialValues
  refine ⟨fun _ _ => rfl, fun _ _ => rfl, fun _ _ => rfl, fun s T sg =>
    ⟨exec_of_checkFormat_invalid rfl, exec_of_checkFormat_invalid rfl, exec_of_checkFormat_invalid rfl, fun hT =>
      ⟨exec_fsetzero hT s, ?inf, ?nan⟩⟩⟩
  case inf => exact ⟨pack T (infV T sg), exec_of_checkFormat rfl hT, pack_infV_toNat hT sg⟩
  case nan => exact ⟨pack T (qNaN T false), exec_of_checkFormat rfl hT, pack_qNaN_false_toNat hT⟩

end Sys2Proof.Machine
end

section
/-! Operations that read two operands: their checks and their completion (R170, R174 to R178). -/

namespace Sys2Proof.Machine

/-- An invalid tag on either port reports InvalidPrecision (R175, R178). -/
theorem checkBoth_of_invalid {q : Request} (h : formatValid (tagOf q.a) = false ∨ formatValid (tagOf q.b) = false) :
    checkBoth q = some .invalidPrecision := by
  unfold checkBoth
  rcases h with h | h <;> simp [h]

/-- Two valid tags that differ report PrecisionMismatch (R177). -/
theorem checkBoth_of_mismatch {q : Request} (ha : formatValid (tagOf q.a) = true)
    (hb : formatValid (tagOf q.b) = true) (hne : tagOf q.a ≠ tagOf q.b) :
    checkBoth q = some .precisionMismatch := by
  simp [checkBoth, ha, hb, hne]

/-- Exchanging the operands does not change what the checks report. -/
theorem checkBoth_swap (q : Request) : checkBoth { q with a := q.b, b := q.a } = checkBoth q := by
  by_cases hinvalid : formatValid (tagOf q.a) = false ∨ formatValid (tagOf q.b) = false
  · rw [checkBoth_of_invalid hinvalid, checkBoth_of_invalid hinvalid.symm]
  obtain ⟨ha, hb⟩ : formatValid (tagOf q.a) = true ∧ formatValid (tagOf q.b) = true := by simpa using hinvalid
  by_cases htag : tagOf q.a = tagOf q.b
  · rw [checkBoth_eq_none.mpr ⟨ha, hb, htag⟩, checkBoth_eq_none.mpr ⟨hb, ha, htag.symm⟩]
  · rw [checkBoth_of_mismatch ha hb htag, checkBoth_of_mismatch hb ha (Ne.symm htag)]

/-- Two operands of one valid format pass the checks (R170). -/
theorem checkBoth_of_sameFormat {F : Format} {q : Request} (h : sameFormat F q) : checkBoth q = none := by
  obtain ⟨rfl, hb, hF⟩ := h
  exact checkBoth_eq_none.mpr ⟨hF, hb.symm ▸ hF, hb.symm⟩

/-- An operation whose response stands behind the checks of two operands delivers it when they have one valid format
(R170). -/
theorem exec_of_checkBoth {i : Instr} {s : State} {F : Format} {r : Response}
    (hi : respond i s.lq (currentDraw s) = answer (checkBoth s.lq) r) (h : sameFormat F s.lq) :
    exec i s = .next (Statements.delivered s r) := by
  rw [exec_eq, hi, checkBoth_of_sameFormat h, answer_none, complete_eq_delivered]

/-- The same operation delivers the error of the first check that fails, and nothing else (R170, R174). -/
theorem exec_of_checkBoth_error {i : Instr} {s : State} {c : ErrorCode} {r : Response}
    (hi : respond i s.lq (currentDraw s) = answer (checkBoth s.lq) r) (hc : checkBoth s.lq = some c) :
    exec i s = .next (Statements.delivered s (Statements.errorOf (errorBits c))) := by
  rw [exec_eq, hi, hc, answer_some, complete_eq_delivered]
  rfl

/-- So its errors are those of every operation that reads A and B (R170, R175, R177). -/
theorem pairErrors_of_checkBoth {i : Instr} {s : State} {r : Response}
    (hi : respond i s.lq (currentDraw s) = answer (checkBoth s.lq) r) : Statements.PairErrors i s :=
  ⟨fun hinvalid => exec_of_checkBoth_error hi (checkBoth_of_invalid hinvalid),
    fun ha hb hne => exec_of_checkBoth_error hi (checkBoth_of_mismatch ha hb hne)⟩

/-- A value of an operand's own format is answered with the operand's tag (R176). -/
theorem valueResponse_tagOf (p : Operand) (v : Value) :
    valueResponse (tagOf p) v = ⟨0#2, p.m, p.e, pack (tagOf p) v, 0#64⟩ := by
  rw [valueResponse, ofNat_tagOf_m, ofNat_tagOf_e]
  rfl

end Sys2Proof.Machine
end

section
/-! FADD's value, row by row of R131's table, and the settlement of the statements about FADD (R131, R133, R135,
R136). -/

namespace Sys2Proof.Machine

/-- A value is a NaN, an infinity or finite (R102). -/
theorem classOf_cases (F : Format) (v : Value) :
    classOf F v = .nan ∨ classOf F v = .inf ∨ Statements.finite F v := by
  unfold Statements.finite
  cases classOf F v <;> simp

/-- The addend of a finite value is its extended value (R131, R151). -/
theorem addend_eq_of_ext {F : Format} {v : Value} {x : ℚ} (hv : Statements.finite F v) (hx : ext F v = .fin x) :
    addend F v = x := by
  rcases hv with hc | hc <;> simpa [ext, addend, hc] using hx

/-! `roundSum`: by the sign of the exact sum. -/

/-- Exact cancellation gives `+0` (R135). -/
@[simp] theorem roundSum_zero (F : Format) : roundSum F 0 = zeroV F false := if_pos rfl

theorem roundSum_of_neg (F : Format) {t : ℚ} (ht : t < 0) : roundSum F t = roundPack F true (-t) := by
  rw [roundSum, if_neg ht.ne, abs_of_neg ht, decide_eq_true ht]

theorem roundSum_of_pos (F : Format) {t : ℚ} (ht : 0 < t) : roundSum F t = roundPack F false t := by
  rw [roundSum, if_neg ht.ne', abs_of_pos ht, decide_eq_false ht.not_gt]

/-! `addValue`: one equation per row of R131's table. -/

section
variable {F : Format} {a b : Value} (d : Value)

theorem addValue_of_nan (h : classOf F a = .nan ∨ classOf F b = .nan) : addValue F d a b = qNaN F false := if_pos h

theorem addValue_inf_inf_same_sign (ha : classOf F a = .inf) (hb : classOf F b = .inf) (hs : a.s = b.s) :
    addValue F d a b = infV F a.s := by
  simp [addValue, ha, hb, hs]

theorem addValue_inf_inf_opposite_sign (ha : classOf F a = .inf) (hb : classOf F b = .inf) (hs : a.s ≠ b.s) :
    addValue F d a b = d := by
  simp [addValue, ha, hb, hs]

theorem addValue_inf_finite (ha : classOf F a = .inf) (hb : Statements.finite F b) :
    addValue F d a b = infV F a.s := by
  rcases hb with hb | hb <;> simp [addValue, ha, hb]

theorem addValue_finite_inf (ha : Statements.finite F a) (hb : classOf F b = .inf) :
    addValue F d a b = infV F b.s := by
  rcases ha with ha | ha <;> simp [addValue, ha, hb]

theorem addValue_zero_zero_same_sign (ha : classOf F a = .zero) (hb : classOf F b = .zero) (hs : a.s = b.s) :
    addValue F d a b = zeroV F a.s := by
  simp [addValue, ha, hb, hs]

theorem addValue_zero_zero_opposite_sign (ha : classOf F a = .zero) (hb : classOf F b = .zero) (hs : a.s ≠ b.s) :
    addValue F d a b = zeroV F false := by
  simp [addValue, ha, hb, hs]

theorem addValue_finite_finite (ha : Statements.finite F a) (hb : Statements.finite F b)
    (hz : ¬(classOf F a = .zero ∧ classOf F b = .zero)) :
    addValue F d a b = roundSum F (addend F a + addend F b) := by
  rcases ha with ha | ha <;> rcases hb with hb | hb <;> simp_all [addValue]

end

/-- FADD's value satisfies R131's table in every valid format, whatever the draw (R131, R133, R135). -/
theorem sumRule_addValue {F : Format} (hF : formatValid F = true) (d : NanDraw) (a b : Value) :
    Statements.SumRule F a b (addValue F (drawnNaN F d) a b) := by
  refine ⟨addValue_of_nan _, addValue_inf_inf_same_sign _, fun ha hb hs => ?cancellingInfinities,
    addValue_inf_finite _, addValue_finite_inf _, addValue_zero_zero_same_sign _, addValue_zero_zero_opposite_sign _,
    fun x y ha hb hx hy hz => ?finiteSum⟩
  case cancellingInfinities =>
    obtain ⟨hm, he, -⟩ := formatValid_bounds hF
    rw [addValue_inf_inf_opposite_sign _ ha hb hs]
    exact ⟨classOf_drawnNaN he d, inFormat_drawnNaN hm d⟩
  case finiteSum =>
    rw [addValue_finite_finite _ ha hb hz, addend_eq_of_ext ha hx, addend_eq_of_ext hb hy]
    exact ⟨fun h => h ▸ roundSum_zero F, roundSum_of_neg F, roundSum_of_pos F⟩

/-- Two finite values add to the same sum in both orders: the sign of a sum of zeros and the exact sum are symmetric
(R131). -/
theorem addValue_comm_of_finite {F : Format} {a b : Value} (d d' : Value) (ha : Statements.finite F a)
    (hb : Statements.finite F b) : addValue F d a b = addValue F d' b a := by
  by_cases hz : classOf F a = .zero ∧ classOf F b = .zero
  · obtain ⟨ha, hb⟩ := hz
    by_cases hs : a.s = b.s
    · rw [addValue_zero_zero_same_sign _ ha hb hs, addValue_zero_zero_same_sign _ hb ha hs.symm, hs]
    · rw [addValue_zero_zero_opposite_sign _ ha hb hs, addValue_zero_zero_opposite_sign _ hb ha (Ne.symm hs)]
  · rw [addValue_finite_finite _ ha hb hz, addValue_finite_finite _ hb ha (fun h => hz h.symm), add_comm]

/-- The sum rule is symmetric, and reads the draw only for infinities of opposite sign (R133, R136). -/
theorem addValue_comm {F : Format} {a b : Value} (d d' : Value)
    (h : ¬(classOf F a = .inf ∧ classOf F b = .inf ∧ a.s ≠ b.s)) : addValue F d a b = addValue F d' b a := by
  rcases classOf_cases F a with ha | ha | ha
  · rw [addValue_of_nan _ (.inl ha), addValue_of_nan _ (.inr ha)]
  · rcases classOf_cases F b with hb | hb | hb
    · rw [addValue_of_nan _ (.inr hb), addValue_of_nan _ (.inl hb)]
    · have hs : a.s = b.s := not_not.mp fun hs => h ⟨ha, hb, hs⟩
      rw [addValue_inf_inf_same_sign _ ha hb hs, addValue_inf_inf_same_sign _ hb ha hs.symm, hs]
    · rw [addValue_inf_finite _ ha hb, addValue_finite_inf _ hb ha]
  · rcases classOf_cases F b with hb | hb | hb
    · rw [addValue_of_nan _ (.inr hb), addValue_of_nan _ (.inl hb)]
    · rw [addValue_finite_inf _ ha hb, addValue_inf_finite _ hb ha]
    · exact addValue_comm_of_finite d d' ha hb

/-- FADD's response: the sum behind the checks of both operands (R131, R170). -/
theorem respond_fadd (q : Request) (d : NanDraw) :
    respond .fadd q d = answer (checkBoth q)
      (valueResponse (tagOf q.a) (addValue (tagOf q.a) (drawnNaN (tagOf q.a) d) (valueOf q.a) (valueOf q.b))) := rfl

/-- Settles O31: FADD answers `addValue` behind the checks of both operands, and `addValue` satisfies R131's table
(R131, R133, R135, R170). -/
theorem faddDeliversTheRoundedSum : Obligations.FaddDeliversTheRoundedSum := by
  unfold Obligations.FaddDeliversTheRoundedSum
  refine ⟨fun _ _ => rfl, fun s => ⟨pairErrors_of_checkBoth (respond_fadd _ _), fun F h => ?_⟩⟩
  have hexec := exec_of_checkBoth (respond_fadd s.lq (currentDraw s)) h
  obtain ⟨rfl, -, hF⟩ := h
  rw [valueResponse_tagOf] at hexec
  exact ⟨_, hexec, sumRule_addValue hF _ _ _⟩

/-- Settles O34: neither the checks (`checkBoth_swap`) nor, within one format, the sum (`addValue_comm`) tells A
from B (R136). -/
theorem faddCommutes : Obligations.FaddCommutes := by
  unfold Obligations.FaddCommutes
  intro q d d' h
  rw [respond_fadd, respond_fadd, checkBoth_swap]
  cases hcheck : checkBoth q with
  | some c => rfl
  | none =>
    obtain ⟨-, -, htag⟩ := checkBoth_eq_none.mp hcheck
    rw [← htag] at h
    simp only [answer_none, ← htag]
    rw [addValue_comm _ _ h]

end Sys2Proof.Machine
end

section
/-! FMUL's and FDIV's values, row by row of the tables of R141 to R143, and the settlement of the statements about
what the two operations deliver (R140 to R143). -/

namespace Sys2Proof.Machine

/-- An operation that answers a value behind the checks of two operands delivers it, under A's own tag, when they have
one valid format (R170, R176). -/
theorem exec_value_of_checkBoth {i : Instr} {s : State} {F : Format} {v : Value}
    (hi : respond i s.lq (currentDraw s) = answer (checkBoth s.lq) (valueResponse (tagOf s.lq.a) v))
    (h : sameFormat F s.lq) :
    exec i s = .next (Statements.delivered s ⟨0#2, s.lq.a.m, s.lq.a.e, pack F v, 0#64⟩) := by
  have hexec := exec_of_checkBoth hi h
  obtain ⟨rfl, -, -⟩ := h
  rwa [valueResponse_tagOf] at hexec

section
variable {F : Format} {a b : Value}

/-! `mulValue`: one equation per row of R141's table. -/

theorem mulValue_of_nan (h : classOf F a = .nan ∨ classOf F b = .nan) : mulValue F a b = qNaN F false := if_pos h

theorem mulValue_zero_inf (ha : classOf F a = .zero) (hb : classOf F b = .inf) : mulValue F a b = qNaN F false := by
  simp [mulValue, ha, hb, nanR]

theorem mulValue_inf_zero (ha : classOf F a = .inf) (hb : classOf F b = .zero) : mulValue F a b = qNaN F false := by
  simp [mulValue, ha, hb, nanR]

theorem mulValue_inf_inf (ha : classOf F a = .inf) (hb : classOf F b = .inf) :
    mulValue F a b = infV F (a.s ^^ b.s) := by
  simp [mulValue, ha, hb]

theorem mulValue_inf_normal (ha : classOf F a = .inf) (hb : classOf F b = .normal) :
    mulValue F a b = infV F (a.s ^^ b.s) := by
  simp [mulValue, ha, hb]

theorem mulValue_normal_inf (ha : classOf F a = .normal) (hb : classOf F b = .inf) :
    mulValue F a b = infV F (a.s ^^ b.s) := by
  simp [mulValue, ha, hb]

theorem mulValue_zero_finite (ha : classOf F a = .zero) (hb : Statements.finite F b) :
    mulValue F a b = zeroV F (a.s ^^ b.s) := by
  rcases hb with hb | hb <;> simp [mulValue, ha, hb]

theorem mulValue_finite_zero (ha : Statements.finite F a) (hb : classOf F b = .zero) :
    mulValue F a b = zeroV F (a.s ^^ b.s) := by
  rcases ha with ha | ha <;> simp [mulValue, ha, hb]

theorem mulValue_normal_normal (ha : classOf F a = .normal) (hb : classOf F b = .normal) :
    mulValue F a b = roundPack F (a.s ^^ b.s) (mag F a * mag F b) := by
  simp [mulValue, ha, hb]

/-! `divValue`: one equation per row of R142's table and R143's two pairs. -/

theorem divValue_of_nan (h : classOf F a = .nan ∨ classOf F b = .nan) : divValue F a b = qNaN F false := if_pos h

theorem divValue_inf_inf (ha : classOf F a = .inf) (hb : classOf F b = .inf) : divValue F a b = qNaN F false := by
  simp [divValue, ha, hb, nanR]

theorem divValue_zero_zero (ha : classOf F a = .zero) (hb : classOf F b = .zero) : divValue F a b = qNaN F false := by
  simp [divValue, ha, hb, nanR]

theorem divValue_inf_finite (ha : classOf F a = .inf) (hb : Statements.finite F b) :
    divValue F a b = infV F (a.s ^^ b.s) := by
  rcases hb with hb | hb <;> simp [divValue, ha, hb]

theorem divValue_finite_inf (ha : Statements.finite F a) (hb : classOf F b = .inf) :
    divValue F a b = zeroV F (a.s ^^ b.s) := by
  rcases ha with ha | ha <;> simp [divValue, ha, hb]

theorem divValue_normal_zero (ha : classOf F a = .normal) (hb : classOf F b = .zero) :
    divValue F a b = infV F (a.s ^^ b.s) := by
  simp [divValue, ha, hb]

theorem divValue_zero_normal (ha : classOf F a = .zero) (hb : classOf F b = .normal) :
    divValue F a b = zeroV F (a.s ^^ b.s) := by
  simp [divValue, ha, hb]

theorem divValue_normal_normal (ha : classOf F a = .normal) (hb : classOf F b = .normal) :
    divValue F a b = roundPack F (a.s ^^ b.s) (mag F a / mag F b) := by
  simp [divValue, ha, hb]

end

/-- FMUL's value satisfies R141's table, with R140's sign. -/
theorem productRule_mulValue (F : Format) (a b : Value) : Statements.ProductRule F a b (mulValue F a b) :=
  ⟨mulValue_of_nan, mulValue_zero_inf, mulValue_inf_zero, mulValue_inf_inf, mulValue_inf_normal, mulValue_normal_inf,
    mulValue_zero_finite, mulValue_finite_zero, mulValue_normal_normal⟩

/-- FDIV's value satisfies R142's table and R143's two pairs, with R140's sign. -/
theorem quotientRule_divValue (F : Format) (a b : Value) : Statements.QuotientRule F a b (divValue F a b) :=
  ⟨divValue_of_nan, divValue_inf_inf, divValue_zero_zero, divValue_inf_finite, divValue_finite_inf,
    divValue_normal_zero, divValue_zero_normal, divValue_normal_normal⟩

/-- FMUL's response: the product behind the checks of both operands, whatever the draw (R141, R170). -/
theorem respond_fmul (q : Request) (d : NanDraw) :
    respond .fmul q d =
      answer (checkBoth q) (valueResponse (tagOf q.a) (mulValue (tagOf q.a) (valueOf q.a) (valueOf q.b))) := rfl

/-- FDIV's response: the quotient behind the checks of both operands, whatever the draw (R142, R170). -/
theorem respond_fdiv (q : Request) (d : NanDraw) :
    respond .fdiv q d =
      answer (checkBoth q) (valueResponse (tagOf q.a) (divValue (tagOf q.a) (valueOf q.a) (valueOf q.b))) := rfl

/-- Settles O36: FMUL answers `mulValue` behind the checks of both operands, and `mulValue` satisfies R141's table
(R140, R141, R170). -/
theorem fmulDeliversTheRoundedProduct : Obligations.FmulDeliversTheRoundedProduct := by
  unfold Obligations.FmulDeliversTheRoundedProduct
  refine ⟨fun _ _ => rfl, fun s => ⟨pairErrors_of_checkBoth (respond_fmul _ _), fun F h => ?_⟩⟩
  have hexec := exec_value_of_checkBoth (respond_fmul s.lq (currentDraw s)) h
  obtain ⟨rfl, -, -⟩ := h
  exact ⟨_, hexec, productRule_mulValue _ _ _⟩

/-- Settles O37: FDIV answers `divValue` behind the checks of both operands, and `divValue` satisfies R142's table
and R143's two pairs (R140, R142, R143, R170). -/
theorem fdivDeliversTheRoundedQuotient : Obligations.FdivDeliversTheRoundedQuotient := by
  unfold Obligations.FdivDeliversTheRoundedQuotient
  refine ⟨fun _ _ => rfl, fun s => ⟨pairErrors_of_checkBoth (respond_fdiv _ _), fun F h => ?_⟩⟩
  have hexec := exec_value_of_checkBoth (respond_fdiv s.lq (currentDraw s)) h
  obtain ⟨rfl, -, -⟩ := h
  exact ⟨_, hexec, quotientRule_divValue _ _ _⟩

end Sys2Proof.Machine
end

section
/-! The order of the extended rationals and the six comparison predicates, in the library's order (R151 to R157). -/

namespace Sys2Proof.Machine

/-! `Statements.order` embeds the extended rationals with the comparator's `<`, `≤` and `=` (R151). -/

/-- A finite value lies below `+∞` already in `WithTop ℚ`, so `+∞` keeps its form as a coercion from there. -/
theorem extLt_iff {x y : ExtRat} : extLt x y = true ↔ Statements.order x < Statements.order y := by
  cases x <;> cases y <;> simp [extLt, Statements.order, -WithBot.coe_top]

theorem order_injective : Function.Injective Statements.order := by
  intro x y h
  cases x <;> cases y <;> simp_all [Statements.order]

theorem extLe_iff {x y : ExtRat} : extLe x y = true ↔ Statements.order x ≤ Statements.order y := by
  rw [extLe, Bool.or_eq_true, decide_eq_true_iff, extLt_iff, ← order_injective.eq_iff, le_iff_lt_or_eq]

section
variable {F : Format} {a b : Value}

theorem unordered_iff : unordered F a b = true ↔ classOf F a = .nan ∨ classOf F b = .nan := by
  simp [unordered]

theorem not_unordered_iff : (!unordered F a b) = true ↔ classOf F a ≠ .nan ∧ classOf F b ≠ .nan := by
  simp [unordered]

/-! Each predicate: what it says of NaNs, and the relation in which the extended values stand. -/

/-- FEQ (R152). -/
theorem feqHolds_iff : feqHolds F a b = true ↔
    classOf F a ≠ .nan ∧ classOf F b ≠ .nan ∧ Statements.order (ext F a) = Statements.order (ext F b) := by
  rw [feqHolds, Bool.and_eq_true, not_unordered_iff, decide_eq_true_iff, order_injective.eq_iff, and_assoc]

/-- FNE (R153). -/
theorem fneHolds_iff : fneHolds F a b = true ↔
    classOf F a = .nan ∨ classOf F b = .nan ∨ Statements.order (ext F a) ≠ Statements.order (ext F b) := by
  rw [fneHolds, Bool.or_eq_true, unordered_iff, decide_eq_true_iff, order_injective.ne_iff, or_assoc]

/-- FLT (R154). -/
theorem fltHolds_iff : fltHolds F a b = true ↔
    classOf F a ≠ .nan ∧ classOf F b ≠ .nan ∧ Statements.order (ext F a) < Statements.order (ext F b) := by
  rw [fltHolds, Bool.and_eq_true, not_unordered_iff, extLt_iff, and_assoc]

/-- FLE (R155). -/
theorem fleHolds_iff : fleHolds F a b = true ↔
    classOf F a ≠ .nan ∧ classOf F b ≠ .nan ∧ Statements.order (ext F a) ≤ Statements.order (ext F b) := by
  rw [fleHolds, Bool.and_eq_true, not_unordered_iff, extLe_iff, and_assoc]

/-- FGT (R156). -/
theorem fgtHolds_iff : fgtHolds F a b = true ↔
    classOf F a ≠ .nan ∧ classOf F b ≠ .nan ∧ Statements.order (ext F b) < Statements.order (ext F a) := by
  rw [fgtHolds, Bool.and_eq_true, not_unordered_iff, extLt_iff, and_assoc]

/-- FGE (R157). -/
theorem fgeHolds_iff : fgeHolds F a b = true ↔
    classOf F a ≠ .nan ∧ classOf F b ≠ .nan ∧ Statements.order (ext F b) ≤ Statements.order (ext F a) := by
  rw [fgeHolds, Bool.and_eq_true, not_unordered_iff, extLe_iff, and_assoc]

end

end Sys2Proof.Machine
end

section
/-! The laws of the comparison predicates, and the settlement of the statement about them (R158). -/

namespace Sys2Proof.Machine

section
variable {F : Format} {a b : Value}

/-- Of two values that are no NaN exactly one of FLT, FEQ and FGT holds: the order is total. -/
theorem flt_feq_fgt_trichotomy (ha : classOf F a ≠ .nan) (hb : classOf F b ≠ .nan) :
    fltHolds F a b = true ∧ feqHolds F a b = false ∧ fgtHolds F a b = false ∨
      fltHolds F a b = false ∧ feqHolds F a b = true ∧ fgtHolds F a b = false ∨
      fltHolds F a b = false ∧ feqHolds F a b = false ∧ fgtHolds F a b = true := by
  simp only [Bool.eq_false_iff, ne_eq, fltHolds_iff, feqHolds_iff, fgtHolds_iff, ha, hb, not_false_eq_true, true_and]
  rcases lt_trichotomy (Statements.order (ext F a)) (Statements.order (ext F b)) with h | h | h
  · exact .inl ⟨h, h.ne, h.asymm⟩
  · exact .inr (.inl ⟨h.not_lt, h, h.not_gt⟩)
  · exact .inr (.inr ⟨h.asymm, h.ne', h⟩)

/-- FLE is FLT or FEQ. -/
theorem fleHolds_eq_or : fleHolds F a b = (fltHolds F a b || feqHolds F a b) := by
  rw [Bool.eq_iff_iff, Bool.or_eq_true, fleHolds_iff, fltHolds_iff, feqHolds_iff, le_iff_lt_or_eq, and_or_left,
    and_or_left]

/-- FGE is FLE of the exchanged operands (R157). -/
theorem fgeHolds_eq_fleHolds_swap : fgeHolds F a b = fleHolds F b a := by
  rw [Bool.eq_iff_iff, fgeHolds_iff, fleHolds_iff, and_left_comm]

/-- FGT is FLT of the exchanged operands (R156). -/
theorem fgtHolds_eq_fltHolds_swap : fgtHolds F a b = fltHolds F b a := by
  rw [Bool.eq_iff_iff, fgtHolds_iff, fltHolds_iff, and_left_comm]

theorem feqHolds_comm : feqHolds F a b = feqHolds F b a := by
  rw [Bool.eq_iff_iff, feqHolds_iff, feqHolds_iff, and_left_comm, eq_comm (a := Statements.order (ext F a))]

theorem fneHolds_comm : fneHolds F a b = fneHolds F b a := by
  rw [Bool.eq_iff_iff, fneHolds_iff, fneHolds_iff, or_left_comm, ne_comm]

/-- FGE is FGT or FEQ. -/
theorem fgeHolds_eq_or : fgeHolds F a b = (fgtHolds F a b || feqHolds F a b) := by
  rw [fgeHolds_eq_fleHolds_swap, fleHolds_eq_or, fgtHolds_eq_fltHolds_swap, feqHolds_comm]

/-- With a NaN every predicate but FNE is false. -/
theorem holds_of_nan (h : classOf F a = .nan ∨ classOf F b = .nan) :
    feqHolds F a b = false ∧ fltHolds F a b = false ∧ fleHolds F a b = false ∧ fgtHolds F a b = false ∧
      fgeHolds F a b = false ∧ fneHolds F a b = true := by
  have hunordered : unordered F a b = true := unordered_iff.mpr h
  simp [feqHolds, fltHolds, fleHolds, fgtHolds, fgeHolds, fneHolds, hunordered]

end

/-- Settles O42: the order of the extended values is total, and a NaN is asked for first (R158). -/
theorem comparePredicatesObeyTheirLaws : Obligations.ComparePredicatesObeyTheirLaws := by
  unfold Obligations.ComparePredicatesObeyTheirLaws
  exact fun F a b => ⟨fun ha hb => ⟨flt_feq_fgt_trichotomy ha hb, fleHolds_eq_or, fgeHolds_eq_or⟩, holds_of_nan,
    feqHolds_comm, fneHolds_comm⟩

end Sys2Proof.Machine
end

section
/-! What a comparison delivers, its predicate's bit behind the checks of both operands, and the settlement of the
statements about it (R150, R152 to R157, R170). -/

namespace Sys2Proof.Machine

/-- A predicate's word is the number 1 or 0 (R150). -/
theorem predicateWord_eq_ite (p : Bool) : predicateWord p = if p then 1#64 else 0#64 := by
  cases p <;> rfl

/-- A comparison of two operands of one valid format delivers its predicate's bit (R150, R176). -/
theorem exec_of_compareResponse {i : Instr} {s : State} {F : Format} {holds : Format → Value → Value → Bool}
    (hi : respond i s.lq (currentDraw s) = compareResponse holds s.lq) (h : sameFormat F s.lq) :
    exec i s = .next (Statements.delivered s
      ⟨0#2, 0#16, 0#8, 0#portBits, if holds F (valueOf s.lq.a) (valueOf s.lq.b) then 1#64 else 0#64⟩) := by
  rw [exec_of_checkBoth hi h, predicateWord_eq_ite, h.1]
  rfl

/-- A comparison's errors are those of every operation that reads A and B (R170). -/
theorem pairErrors_of_compareResponse {i : Instr} {s : State} {holds : Format → Value → Value → Bool}
    (hi : respond i s.lq (currentDraw s) = compareResponse holds s.lq) : Statements.PairErrors i s :=
  pairErrors_of_checkBoth hi

/-! The predicate of each operation (R66, R152 to R157). -/

theorem respond_feq (q : Request) (d : NanDraw) : respond .feq q d = compareResponse feqHolds q := rfl
theorem respond_fne (q : Request) (d : NanDraw) : respond .fne q d = compareResponse fneHolds q := rfl
theorem respond_flt (q : Request) (d : NanDraw) : respond .flt q d = compareResponse fltHolds q := rfl
theorem respond_fle (q : Request) (d : NanDraw) : respond .fle q d = compareResponse fleHolds q := rfl
theorem respond_fgt (q : Request) (d : NanDraw) : respond .fgt q d = compareResponse fgtHolds q := rfl
theorem respond_fge (q : Request) (d : NanDraw) : respond .fge q d = compareResponse fgeHolds q := rfl

/-- Settles O40: FEQ and FNE are comparisons, and their predicates are told by `feqHolds_iff` and `fneHolds_iff`
(R152, R153). -/
theorem equalityComparesDeliverThePredicate : Obligations.EqualityComparesDeliverThePredicate := by
  unfold Obligations.EqualityComparesDeliverThePredicate
  exact ⟨fun _ _ => rfl, fun _ _ => rfl, fun s => ⟨
    pairErrors_of_compareResponse (respond_feq _ _), pairErrors_of_compareResponse (respond_fne _ _), fun F h => ⟨
      ⟨_, exec_of_compareResponse (respond_feq _ _) h, feqHolds_iff⟩,
      ⟨_, exec_of_compareResponse (respond_fne _ _) h, fneHolds_iff⟩⟩⟩⟩

/-- Settles O41: FLT, FLE, FGT and FGE are comparisons, and their predicates are told in the library's order by
`fltHolds_iff` and its companions (R154 to R157). -/
theorem orderComparesDeliverThePredicate : Obligations.OrderComparesDeliverThePredicate := by
  unfold Obligations.OrderComparesDeliverThePredicate
  refine ⟨fun _ _ => rfl, fun _ _ => rfl, fun _ _ => rfl, fun _ _ => rfl, fun s => ⟨
    pairErrors_of_compareResponse (respond_flt _ _), pairErrors_of_compareResponse (respond_fle _ _),
    pairErrors_of_compareResponse (respond_fgt _ _), pairErrors_of_compareResponse (respond_fge _ _), ?_⟩⟩
  rintro F x y h rfl rfl
  exact ⟨⟨_, exec_of_compareResponse (respond_flt _ _) h, fltHolds_iff⟩,
    ⟨_, exec_of_compareResponse (respond_fle _ _) h, fleHolds_iff⟩,
    ⟨_, exec_of_compareResponse (respond_fgt _ _) h, fgtHolds_iff⟩,
    ⟨_, exec_of_compareResponse (respond_fge _ _) h, fgeHolds_iff⟩⟩

end Sys2Proof.Machine
end

section
/-! The cast's value, case by case of R161, and the settlement of the statement about what FCAST delivers (R160,
R161). -/

namespace Sys2Proof.Machine

section
variable {F T : Format} {a : Value}

/-! `castValue`: one equation per case of R161. -/

@[simp] theorem castValue_self (F : Format) (a : Value) : castValue F F a = a := if_pos rfl

theorem castValue_of_nan (h : T ≠ F) (ha : classOf F a = .nan) : castValue F T a = qNaN T a.s := by
  simp [castValue, h, ha]

theorem castValue_of_zero (h : T ≠ F) (ha : classOf F a = .zero) : castValue F T a = zeroV T a.s := by
  simp [castValue, h, ha]

theorem castValue_of_inf (h : T ≠ F) (ha : classOf F a = .inf) : castValue F T a = infV T a.s := by
  simp [castValue, h, ha]

theorem castValue_of_normal (h : T ≠ F) (ha : classOf F a = .normal) :
    castValue F T a = roundPack T a.s (mag F a) := by
  simp [castValue, h, ha]

end

/-- The cast's value satisfies R161's five cases. -/
theorem castRule_castValue (F T : Format) (a : Value) : Statements.CastRule F T a (castValue F T a) :=
  ⟨fun h => h ▸ castValue_self F a, castValue_of_nan, castValue_of_zero, castValue_of_inf, castValue_of_normal⟩

/-- An invalid tag of A or an invalid target reports InvalidPrecision (R160, R175). -/
theorem checkAAndTarget_of_invalid {q : Request} {T : Format}
    (h : formatValid (tagOf q.a) = false ∨ formatValid T = false) :
    checkAAndTarget q T = some .invalidPrecision := by
  unfold checkAAndTarget
  rcases h with h | h <;> simp [h]

/-- FCAST's response: the cast behind the checks of A's format and of the target, whatever the draw and B are (R160,
R161). -/
theorem respond_fcast (T : Format) (q : Request) (d : NanDraw) :
    respond (.fcast T) q d =
      answer (checkAAndTarget q T) (valueResponse T (castValue (tagOf q.a) T (valueOf q.a))) := rfl

/-- FCAST between two valid formats delivers the cast's value in the target format (R161, R176). -/
theorem exec_fcast {s : State} {T : Format} (hA : formatValid (tagOf s.lq.a) = true) (hT : formatValid T = true) :
    exec (.fcast T) s =
      .next (Statements.delivered s (valueResponse T (castValue (tagOf s.lq.a) T (valueOf s.lq.a)))) := by
  rw [exec_eq, respond_fcast, checkAAndTarget_eq_none.mpr ⟨hA, hT⟩, answer_none, complete_eq_delivered]

/-- FCAST delivers the error InvalidPrecision when one of its two formats is not valid (R160, R174). -/
theorem exec_fcast_of_invalid {s : State} {T : Format}
    (h : formatValid (tagOf s.lq.a) = false ∨ formatValid T = false) :
    exec (.fcast T) s = .next (Statements.delivered s (Statements.errorOf 1#2)) := by
  rw [exec_eq, respond_fcast, checkAAndTarget_of_invalid h, answer_some, complete_eq_delivered]
  rfl

/-- Settles O44: FCAST answers `castValue` behind the checks of A's format and of the target, and `castValue`
satisfies R161's cases (R160, R161). -/
theorem fcastDeliversTheRoundedValue : Obligations.FcastDeliversTheRoundedValue := by
  unfold Obligations.FcastDeliversTheRoundedValue
  exact ⟨fun _ _ => rfl, fun s T => ⟨fun hA => exec_fcast_of_invalid (.inl hA),
    fun hT => exec_fcast_of_invalid (.inr hT), fun hA hT => ⟨_, exec_fcast hA hT, castRule_castValue _ _ _⟩⟩⟩

end Sys2Proof.Machine
end

section
/-! A port word that is read as a value and written again, and the settlement of the statement about the cast to the
operand's own format (R61, R165). -/

namespace Sys2Proof.Machine

/-- The sign of a port word, as a number. -/
theorem unpack_s_toNat (F : Format) (b : PortWord) : (unpack F b).s.toNat = b.toNat / 2 ^ (F.m + F.e) % 2 := by
  rw [unpack_s, BitVec.getLsbD, Nat.toNat_testBit]

/-- The fields of a port word, put side by side, are the word without the bits above the value (R61). -/
theorem packNat_unpack (F : Format) (b : PortWord) : packNat F (unpack F b) = b.toNat % 2 ^ (1 + F.m + F.e) := by
  have hwidth : 2 ^ (1 + F.m + F.e) = 2 ^ F.m * 2 ^ F.e * 2 := by rw [← pow_add, ← pow_succ]; congr 1; omega
  rw [packNat, unpack_s_toNat, unpack_x, unpack_f, hwidth, Nat.mod_mul, Nat.mod_mul, pow_add]
  ring

/-- Settles O45: the cast to the operand's own format is the identity on the value, and the value read from a port
packs to the port's own bits (`packNat_unpack`) (R165). -/
theorem fcastToTheSameFormatKeepsEveryBit : Obligations.FcastToTheSameFormatKeepsEveryBit := by
  unfold Obligations.FcastToTheSameFormatKeepsEveryBit
  refine fun s => ⟨fun hA => exec_fcast_of_invalid (.inl hA), fun hA => ⟨_, exec_fcast hA hA, ?_⟩⟩
  rw [castValue_self, valueResponse_tagOf]
  refine ⟨rfl, rfl, rfl, ?bits⟩
  case bits =>
    calc (pack (tagOf s.lq.a) (valueOf s.lq.a)).toNat
        = packNat (tagOf s.lq.a) (valueOf s.lq.a) := pack_toNat hA (inFormat_valueOf _)
      _ = _ := packNat_unpack _ _

end Sys2Proof.Machine
end

section
/-! A value of format (52, 11) as a binary64 word, and the settlement of the statement about FCVT.F64.X (R42, R162). -/

namespace Sys2Proof.Machine

/-- The number of a binary64 word is the packed number of its value (R42). -/
theorem packWord64_toNat {v : Value} (h : v.inFormat f64Format = true) :
    (packWord64 v).toNat = packNat f64Format v := by
  rw [packWord64, BitVec.toNat_ofNat]
  exact Nat.mod_eq_of_lt (packNat_lt h)

/-- The fields of the binary64 word of a value are the value's own (R42, R110). -/
theorem f64Fields_packWord64 {v : Value} (h : v.inFormat f64Format = true) : f64Fields (packWord64 v) = v := by
  obtain ⟨hx, hf⟩ := inFormat_iff.mp h
  have hnum := packWord64_toNat h
  obtain ⟨s, x, f⟩ := v
  simp only [packNat, f64Format] at hx hf hnum
  have hs : (packWord64 ⟨s, x, f⟩).getLsbD 63 = s := by
    rw [BitVec.getLsbD, hnum, Nat.testBit_eq_decide_div_mod_eq]
    cases s <;> simp <;> omega
  have hx' : ((packWord64 ⟨s, x, f⟩).extractLsb' 52 11).toNat = x := by
    rw [BitVec.extractLsb'_toNat, hnum, Nat.shiftRight_eq_div_pow]
    omega
  have hf' : ((packWord64 ⟨s, x, f⟩).extractLsb' 0 52).toNat = f := by
    rw [BitVec.extractLsb'_toNat, hnum, Nat.shiftRight_zero]
    omega
  rw [f64Fields, hs, hx', hf']

/-- The cast of a value of its format is a value of the target format, the identity included (R161). -/
theorem inFormat_castValue {F T : Format} {a : Value} (hT : formatValid T = true) (ha : a.inFormat F = true) :
    (castValue F T a).inFormat T = true := by
  by_cases h : T = F
  · rw [h, castValue_self]
    exact ha
  · exact (canonical_castValue hT h a).1

/-- Settles O48: FCVT.F64.X answers the word of the cast to (52, 11) behind the check of A's format, and the word's
fields are the value's (`f64Fields_packWord64`) (R162). -/
theorem fcvtF64XDeliversTheBinary64Word : Obligations.FcvtF64XDeliversTheBinary64Word := by
  unfold Obligations.FcvtF64XDeliversTheBinary64Word
  refine ⟨fun _ _ => rfl, fun s => ⟨exec_of_checkFormat_invalid rfl, fun hA =>
    ⟨_, _, exec_of_checkFormat rfl hA, castRule_castValue _ _ _, ?fields⟩⟩⟩
  case fields =>
    have hfields := f64Fields_packWord64 (inFormat_castValue f64Format_valid (inFormat_valueOf s.lq.a))
    exact ⟨congrArg Value.s hfields, congrArg Value.x hfields, congrArg Value.f hfields⟩

end Sys2Proof.Machine
end

section
/-! Magnitudes that a format holds exactly: rounding keeps them, and a NORMAL value is told by its sign and magnitude
(R103, R127). -/

namespace Sys2Proof.Machine

/-- The bias grows with the exponent width (R101). -/
theorem bias_mono {e e' : Nat} (h : e ≤ e') : bias e ≤ bias e' :=
  Nat.sub_le_sub_right (Nat.pow_le_pow_right (by decide) (Nat.sub_le_sub_right h 1)) 1

/-- The magnitude of a NORMAL value lies in the range of its format (R103). -/
theorem mag_range {F : Format} {v : Value} (he : 2 ≤ F.e) (hv : v.inFormat F = true) (hc : classOf F v = .normal) :
    (2 : ℚ) ^ (1 - (bias F.e : Int)) ≤ mag F v ∧ mag F v < (2 : ℚ) ^ ((bias F.e : Int) + 1) := by
  obtain ⟨hlow, hhigh, hf⟩ := normal_bounds he hv hc
  obtain ⟨hle, hlt⟩ := ilog2_spec (mag_pos F v)
  rw [ilog2_mag hf] at hle hlt
  exact ⟨(zpow_le_zpow_right₀ (by norm_num) (by omega)).trans hle,
    hlt.trans_le (zpow_le_zpow_right₀ (by norm_num) (by omega))⟩

/-- Rounding to at least as many mantissa bits keeps a magnitude: the retained bits are the significand, padded with
zeros (R121, R163). -/
theorem roundedMag_mag {F : Format} {v : Value} {m : Nat} (hm : F.m ≤ m) (hf : v.f < 2 ^ F.m) :
    roundedMag m (mag F v) = mag F v := by
  have hscaled : mag F v * (2 : ℚ) ^ ((m : Int) - ((v.x : Int) - bias F.e)) =
      ((significand F v * 2 ^ (m - F.m) : Int) : ℚ) := by
    push_cast
    rw [mag, mul_assoc, ← zpow_add₀ (by norm_num), ← zpow_natCast (2 : ℚ) (m - F.m)]
    congr 2
    omega
  rw [roundedMag, ilog2_mag hf, hscaled, roundEven_int, ← hscaled, mul_assoc, ← zpow_add₀ (by norm_num)]
  simp

/-- Round-and-pack into a format at least as wide keeps the sign and the magnitude of a NORMAL value (R163). -/
theorem roundPack_mag_widen {F T : Format} {v : Value} (heF : 2 ≤ F.e) (hm : F.m ≤ T.m) (he : F.e ≤ T.e)
    (hv : v.inFormat F = true) (hc : classOf F v = .normal) (s : Bool) :
    (roundPack T s (mag F v)).s = s ∧ (roundPack T s (mag F v)).inFormat T = true ∧
      classOf T (roundPack T s (mag F v)) = .normal ∧ mag T (roundPack T s (mag F v)) = mag F v := by
  obtain ⟨hlow, hhigh⟩ := mag_range heF hv hc
  have hbias := bias_mono he
  have hround := roundedMag_mag hm (inFormat_iff.mp hv).2
  rcases roundPack_cases (heF.trans he) s (mag_pos F v) with ⟨hover, -⟩ | ⟨hunder, -⟩ | ⟨-, -, hs, hin, hn, hmag⟩
  · have := zpow_le_zpow_right₀ (a := (2 : ℚ)) (by norm_num) (show (bias F.e : Int) + 1 ≤ bias T.e + 1 by omega)
    rw [hround] at hover
    exact absurd hhigh (this.trans hover).not_gt
  · have := zpow_le_zpow_right₀ (a := (2 : ℚ)) (by norm_num) (show 1 - (bias T.e : Int) ≤ 1 - bias F.e by omega)
    rw [hround] at hunder
    exact absurd hunder (this.trans hlow).not_gt
  · exact ⟨hs, hin, hn, hmag.trans hround⟩

/-- A value is told by its sign and magnitude: the magnitude's binade gives the exponent field, the rest the mantissa
field (R103). -/
theorem eq_of_mag_eq {F : Format} {v w : Value} (hv : v.inFormat F = true) (hw : w.inFormat F = true)
    (hs : v.s = w.s) (hmag : mag F v = mag F w) : v = w := by
  have hx : v.x = w.x := by
    have := congrArg ilog2 hmag
    rw [ilog2_mag (inFormat_iff.mp hv).2, ilog2_mag (inFormat_iff.mp hw).2] at this
    omega
  have hf : v.f = w.f := by
    rw [mag, mag, hx, mul_left_inj' (two_zpow_pos _).ne', Nat.cast_inj] at hmag
    exact Nat.add_left_cancel hmag
  obtain ⟨s, x, f⟩ := v
  simp_all

/-- Round-and-pack of a NORMAL value's own magnitude is the value (R127). -/
theorem roundPack_mag {F : Format} {v : Value} (he : 2 ≤ F.e) (hv : v.inFormat F = true)
    (hc : classOf F v = .normal) : roundPack F v.s (mag F v) = v := by
  obtain ⟨hs, hin, -, hmag⟩ := roundPack_mag_widen he le_rfl le_rfl hv hc v.s
  exact eq_of_mag_eq hin hv hs hmag

end Sys2Proof.Machine
end

section
/-! A cast to another format and back, class by class, and the settlement of the statement about widening and
narrowing (R164). -/

namespace Sys2Proof.Machine

section
variable {F T : Format} {v : Value}

/-- A zero comes back as the zero of its sign (R161, R164). -/
theorem castValue_castValue_of_zero (h : T ≠ F) (hc : classOf F v = .zero) :
    castValue T F (castValue F T v) = zeroV F v.s := by
  rw [castValue_of_zero h hc, castValue_of_zero h.symm (classOf_zeroV T v.s)]
  rfl

/-- A NaN comes back as the canonical NaN of its sign (R161, R164). -/
theorem castValue_castValue_of_nan (heT : 2 ≤ T.e) (h : T ≠ F) (hc : classOf F v = .nan) :
    castValue T F (castValue F T v) = qNaN F v.s := by
  rw [castValue_of_nan h hc, castValue_of_nan h.symm (classOf_qNaN heT v.s)]
  rfl

/-- An infinity comes back as the infinity of its sign (R161). -/
theorem castValue_castValue_of_inf (heT : 2 ≤ T.e) (h : T ≠ F) (hc : classOf F v = .inf) :
    castValue T F (castValue F T v) = infV F v.s := by
  rw [castValue_of_inf h hc, castValue_of_inf h.symm (classOf_infV heT v.s)]
  rfl

/-- A NORMAL value comes back from a format at least as wide as it was: the wide value has its magnitude, and rounding
the magnitude back gives the value (R163, R164). -/
theorem castValue_castValue_of_normal (heF : 2 ≤ F.e) (hm : F.m ≤ T.m) (he : F.e ≤ T.e)
    (hv : v.inFormat F = true) (h : T ≠ F) (hc : classOf F v = .normal) :
    castValue T F (castValue F T v) = v := by
  obtain ⟨hs, -, hn, hmag⟩ := roundPack_mag_widen heF hm he hv hc v.s
  rw [castValue_of_normal h hc, castValue_of_normal h.symm hn, hs, hmag, roundPack_mag heF hv hc]

/-- The canonical zero of a sign is the one zero pattern with no mantissa bit (R102, R105). -/
theorem zeroV_eq_of_canonical (hc : classOf F v = .zero) (hf : v.f = 0) : zeroV F v.s = v := by
  obtain ⟨s, x, f⟩ := v
  rw [classOf_zero_iff] at hc
  simp_all [zeroV]

/-- An infinity has no other pattern than the one of its sign (R102, R105). -/
theorem infV_eq_of_inf (hc : classOf F v = .inf) : infV F v.s = v := by
  obtain ⟨s, x, f⟩ := v
  rw [classOf_inf_iff] at hc
  simp_all [infV]

end

/-- Settles O47: to the same format both casts are the identity; to another one each class comes back by its own lemma
(R164). -/
theorem widenThenNarrowIsTheIdentity : Obligations.WidenThenNarrowIsTheIdentity := by
  unfold Obligations.WidenThenNarrowIsTheIdentity
  intro F T v hF hT hm he hv
  obtain ⟨-, heF, -⟩ := formatValid_bounds hF
  obtain ⟨-, heT, -⟩ := formatValid_bounds hT
  refine ⟨fun hnan hzero => ?canonical, castValue_castValue_of_zero, castValue_castValue_of_nan heT⟩
  case canonical =>
    by_cases h : T = F
    · rw [h, castValue_self, castValue_self]
    · cases hc : classOf F v with
      | zero => rw [castValue_castValue_of_zero h hc, zeroV_eq_of_canonical hc (hzero (classOf_zero_iff.mp hc))]
      | normal => exact castValue_castValue_of_normal heF hm he hv h hc
      | inf => rw [castValue_castValue_of_inf heT h hc, infV_eq_of_inf hc]
      | nan => exact absurd hc hnan

end Sys2Proof.Machine
end

section
/-! The formats an operation reads, and the settlement of the statements about its errors and its success (R170, R173,
R175 to R178). -/

namespace Sys2Proof.Machine

section
variable {i : Instr} {q : Request} {T : Format}

/-! What it means for some format that an operation reads to be invalid, by the columns "reads" of R66 (R175). -/

theorem readsInvalidFormat_iff_pair (hA : readsA i = true) (hB : readsB i = true) (hT : targetRead i = none) :
    readsInvalidFormat i q ↔ formatValid (tagOf q.a) = false ∨ formatValid (tagOf q.b) = false := by
  simp [readsInvalidFormat, hA, hB, hT]

theorem readsInvalidFormat_iff_operand (hA : readsA i = true) (hB : readsB i = false) (hT : targetRead i = none) :
    readsInvalidFormat i q ↔ formatValid (tagOf q.a) = false := by
  simp [readsInvalidFormat, hA, hB, hT]

theorem readsInvalidFormat_iff_operand_target (hA : readsA i = true) (hB : readsB i = false)
    (hT : targetRead i = some T) :
    readsInvalidFormat i q ↔ formatValid (tagOf q.a) = false ∨ formatValid T = false := by
  simp [readsInvalidFormat, hA, hB, hT]

theorem readsInvalidFormat_iff_target (hA : readsA i = false) (hB : readsB i = false) (hT : targetRead i = some T) :
    readsInvalidFormat i q ↔ formatValid T = false := by
  simp [readsInvalidFormat, hA, hB, hT]

/-! Where no format that is read is invalid, each of them is valid. -/

theorem formatValid_a_of_reads (h : ¬readsInvalidFormat i q) (hA : readsA i = true) :
    formatValid (tagOf q.a) = true :=
  eq_true_of_ne_false fun ha => h (.inl ⟨hA, ha⟩)

theorem formatValid_b_of_reads (h : ¬readsInvalidFormat i q) (hB : readsB i = true) :
    formatValid (tagOf q.b) = true :=
  eq_true_of_ne_false fun hb => h (.inr (.inl ⟨hB, hb⟩))

theorem formatValid_target_of_reads (h : ¬readsInvalidFormat i q) (hT : targetRead i = some T) :
    formatValid T = true :=
  eq_true_of_ne_false fun ht => h (.inr (.inr ⟨T, hT, ht⟩))

/-- Two operands that are read, with no invalid format and no mismatch, have one valid format (R177). -/
theorem sameFormat_of_reads (h : ¬readsInvalidFormat i q) (hm : ¬readsMismatch i q) (hA : readsA i = true)
    (hB : readsB i = true) : sameFormat (tagOf q.a) q :=
  ⟨rfl, not_not.mp fun hne => hm ⟨hA, hB, Ne.symm hne⟩, formatValid_a_of_reads h hA⟩

/-- An operation that reads B answers behind the checks of both operands (R66, R170). -/
theorem respond_eq_answer_checkBoth (hB : readsB i = true) (d : NanDraw) :
    ∃ r, respond i q d = answer (checkBoth q) r := by
  cases i with
  | fadd | fsub | fmul | fdiv | feq | fne | flt | fle | fgt | fge => exact ⟨_, rfl⟩
  | fcast | fcvtXF64 | fcvtF64X | fclass | fsetzero | fsetinf | fsetnan => cases hB

end

/-- The operation delivers a response without an error, in which the registers that its row of R66 does not write
are 0 (R173, R176). -/
def Succeeds (i : Instr) (s : State) : Prop :=
  ∃ r, exec i s = .next (Statements.delivered s r) ∧ r.rErr = 0#2 ∧
    (writesWord i = true → r.rM = 0#16 ∧ r.rE = 0#8 ∧ r.rBits = 0#portBits) ∧ (writesWord i = false → r.rWord = 0#64)

theorem succeeds_of_value {i : Instr} {s : State} {F : Format} {v : Value} (hi : writesWord i = false)
    (h : exec i s = .next (Statements.delivered s (valueResponse F v))) : Succeeds i s :=
  ⟨_, h, valueResponse_rErr F v, fun hw => absurd hw (by simp [hi]), fun _ => valueResponse_rWord F v⟩

theorem succeeds_of_word {i : Instr} {s : State} {w : BitVec 64} (hi : writesWord i = true)
    (h : exec i s = .next (Statements.delivered s (wordResponse w))) : Succeeds i s :=
  ⟨_, h, wordResponse_rErr w, fun _ => ⟨wordResponse_rM w, wordResponse_rE w, wordResponse_rBits w⟩,
    fun hw => absurd hw (by simp [hi])⟩

/-- Settles O54: the four kinds of operation, by the formats they read, each with the lemma about its check (R170,
R175, R178). -/
theorem invalidFormatsReportCodeOne : Obligations.InvalidFormatsReportCodeOne := by
  unfold Obligations.InvalidFormatsReportCodeOne
  intro i s h
  cases i with
  | fadd | fsub | fmul | fdiv | feq | fne | flt | fle | fgt | fge =>
    exact (pairErrors_of_checkBoth rfl).1 ((readsInvalidFormat_iff_pair rfl rfl rfl).mp h)
  | fcast => exact exec_fcast_of_invalid ((readsInvalidFormat_iff_operand_target rfl rfl rfl).mp h)
  | fcvtF64X | fclass =>
    exact exec_of_checkFormat_invalid rfl ((readsInvalidFormat_iff_operand rfl rfl rfl).mp h)
  | fcvtXF64 | fsetzero | fsetinf | fsetnan =>
    exact exec_of_checkFormat_invalid rfl ((readsInvalidFormat_iff_target rfl rfl rfl).mp h)

/-- Settles O55: an operation that reads B checks both operands (`respond_eq_answer_checkBoth`), so it has the errors
of a pair (R177, R178). -/
theorem differentFormatsReportCodeTwo : Obligations.DifferentFormatsReportCodeTwo := by
  unfold Obligations.DifferentFormatsReportCodeTwo
  rintro i s hvalid ⟨hA, hB, hne⟩
  obtain ⟨r, hr⟩ := respond_eq_answer_checkBoth (q := s.lq) hB (currentDraw s)
  exact (pairErrors_of_checkBoth hr).2 (formatValid_a_of_reads hvalid hA) (formatValid_b_of_reads hvalid hB) hne

/-- Settles O56: once its checks pass, an operation delivers a value or a word, as its row of R66 says, whatever the
operand values are (R173, R176). -/
theorem noOperandValueIsAnError : Obligations.NoOperandValueIsAnError := by
  unfold Obligations.NoOperandValueIsAnError
  intro i s hvalid hmatch
  change Succeeds i s
  cases i with
  | fadd | fsub | fmul | fdiv =>
    exact succeeds_of_value rfl (exec_of_checkBoth rfl (sameFormat_of_reads hvalid hmatch rfl rfl))
  | feq | fne | flt | fle | fgt | fge =>
    exact succeeds_of_word rfl (exec_of_checkBoth rfl (sameFormat_of_reads hvalid hmatch rfl rfl))
  | fcast =>
    exact succeeds_of_value rfl
      (exec_fcast (formatValid_a_of_reads hvalid rfl) (formatValid_target_of_reads hvalid rfl))
  | fcvtF64X | fclass =>
    exact succeeds_of_word rfl (exec_of_checkFormat rfl (formatValid_a_of_reads hvalid rfl))
  | fcvtXF64 | fsetzero | fsetinf | fsetnan =>
    exact succeeds_of_value rfl (exec_of_checkFormat rfl (formatValid_target_of_reads hvalid rfl))

end Sys2Proof.Machine
end

section
/-! The clock edge, one equation per case of `step` (R190, R191, R193), and the settlement of the statements about the
reset edge and about START. The completing edge has its equation already (`step_completing`). -/

namespace Sys2Proof.Machine

/-- A reset edge, whatever START and BUSY are (R193). -/
theorem step_reset {s : State} (hrst : s.pins.rst = true) : step s = .next (resetBlock (hostDrives s)) := by
  simp [step, hrst]

/-- An edge that accepts a request (R190). -/
theorem step_accepting {s : State} (hrst : s.pins.rst = false) (hbusy : s.busy = false) (hstart : s.pins.start = true) :
    step s = .next (accept s.pins.req (hostDrives s)) := by
  simp [step, hrst, hbusy, hstart]

/-- An edge in the middle of a transaction (R191). -/
theorem step_waiting {s : State} (hrst : s.pins.rst = false) (hbusy : s.busy = true) (hedges : 1 < s.edgesLeft) :
    step s = .next (awaitEdge (hostDrives s)) := by
  simp [step, hrst, hbusy, Nat.not_le.mpr hedges]

/-- What the pins hold at an edge makes no difference to what the host's drive leaves, but for the pins themselves. -/
theorem hostDrives_withPins (s : State) (p : Pins) :
    { hostDrives s with pins := (hostDrives { s with pins := p }).pins } = hostDrives { s with pins := p } := by
  obtain ⟨pins, drive, lq, resp, busy, done, edgesLeft, draws⟩ := s
  cases drive <;> rfl

/-- While BUSY = 1 and RST = 0 an edge latches nothing, and the levels of START and of the ports make no difference to
what it leaves, but for the pins themselves: neither the completing nor the waiting edge reads them (R26, R190). -/
theorem step_busy_withPins {s : State} {p : Pins} (hbusy : s.busy = true) (hrst : s.pins.rst = false)
    (hp : p.rst = false) :
    ∃ t u, step s = .next t ∧ step { s with pins := p } = .next u ∧ t.lq = s.lq ∧ { t with pins := u.pins } = u := by
  have hdrive := hostDrives_withPins s p
  rcases Nat.lt_or_ge 1 s.edgesLeft with hedges | hedges
  · refine ⟨_, _, step_waiting hrst hbusy hedges, step_waiting hp hbusy hedges, ?_, congrArg awaitEdge hdrive⟩
    rw [awaitEdge_lq, hostDrives_lq]
  · refine ⟨_, _, step_completing hrst hbusy hedges, step_completing hp hbusy hedges, ?_,
      congrArg (complete (transact s.lq (currentDraw s))) hdrive⟩
    rw [complete_lq, hostDrives_lq]

/-- Settles O2: a reset edge answers `resetBlock`, which writes the reset value into every register (R32, R193). -/
theorem resetEdgeClearsBlock : Obligations.ResetEdgeClearsBlock := by
  unfold Obligations.ResetEdgeClearsBlock
  intro s hrst
  rw [State.reset_lq, State.reset_resp]
  exact ⟨_, step_reset hrst, resetBlock_busy _, resetBlock_done _, resetBlock_lq _, resetBlock_resp _⟩

/-- Settles O3: an idle block's edge is `accept`; a busy block's edge does not read START, so lowering it changes
nothing but the pins (`step_busy_withPins`, R190). -/
theorem startIsAcceptedIdleAndIgnoredBusy : Obligations.StartIsAcceptedIdleAndIgnoredBusy := by
  unfold Obligations.StartIsAcceptedIdleAndIgnoredBusy
  constructor
  · intro s hrst hstart hbusy
    refine ⟨_, step_accepting hrst hbusy hstart, accept_lq _ _, accept_busy _ _, accept_done _ _, ?_⟩
    rw [accept_resp, hostDrives_resp]
  · intro s hrst _ hbusy
    exact step_busy_withPins hbusy hrst hrst

end Sys2Proof.Machine
end

section
/-! Encoding and decoding agree, and the settlement of the statements about the decoder (R63, R66 to R69). -/

namespace Sys2Proof

/-- A command word of the given fields decodes to the row of its own opcode, with those fields (R63, R66). -/
theorem decode_cmdWord (o : BitVec 5) (sg : Bool) {t : Format} (ht : t.fitsFields = true) :
    decode (cmdWord o sg t) = decodeOpc o sg t := by
  rw [decode, if_pos (rsvOf_cmdWord o sg t), opcOf_cmdWord, sgOf_cmdWord, targetOf_cmdWord o sg ht]

/-- Settles O18: an instruction's encoding is a command word of its own opcode and fields, so `decode_cmdWord` reads its
own row of R66. -/
theorem decodeOfEncodeIsTheInstruction : Obligations.DecodeOfEncodeIsTheInstruction := by
  unfold Obligations.DecodeOfEncodeIsTheInstruction
  intro i hi
  cases i with
  | fadd | fsub | fmul | fdiv | feq | fne | flt | fle | fgt | fge | fcvtF64X | fclass =>
    exact decode_cmdWord _ false (by decide)
  | fcast t | fcvtXF64 t | fsetzero t | fsetnan t => exact decode_cmdWord _ false hi
  | fsetinf t sg => exact decode_cmdWord _ sg hi

/-- Settles O19: the words that the decoder rejects are told by `decode_error_iff`, the instruction that a word selects
by `decode_eq_ok_iff` (R66, R67, R69). -/
theorem decodingSelectsTheRowOrRejects : Obligations.DecodingSelectsTheRowOrRejects := by
  unfold Obligations.DecodingSelectsTheRowOrRejects
  refine fun w => ⟨decode_error_iff w, fun i hi => ?_⟩
  obtain ⟨-, hopc, htarget, -⟩ := decode_eq_ok_iff.mp hi
  refine ⟨hopc, fun hreads => ?_⟩
  obtain ⟨t, ht⟩ := Option.ne_none_iff_exists'.mp hreads
  rw [ht, htarget t ht]

end Sys2Proof
end

section
/-! What a step leaves, one case per edge (the inversion of `step`), and the settlement of the statements about single
edges (R190, R191). -/

namespace Sys2Proof.Machine

/-- An edge of an idle block without a START (R191). -/
theorem step_idle {s : State} (hrst : s.pins.rst = false) (hbusy : s.busy = false) (hstart : s.pins.start = false) :
    step s = .next (hostDrives s) := by
  simp [step, hrst, hbusy, hstart]

/-- The next state of an edge, one constructor per kind of edge, each with the levels that lead to it. -/
inductive NextState (s : State) : State → Prop where
  | reset (rst : s.pins.rst = true) : NextState s (resetBlock (hostDrives s))
  | complete (due : completing s) :
    NextState s (Machine.complete (transact s.lq (currentDraw s)) (hostDrives s))
  | await (rst : s.pins.rst = false) (busy : s.busy = true) (edges : 1 < s.edgesLeft) :
    NextState s (awaitEdge (hostDrives s))
  | accept (rst : s.pins.rst = false) (busy : s.busy = false) (start : s.pins.start = true) :
    NextState s (Machine.accept s.pins.req (hostDrives s))
  | idle (rst : s.pins.rst = false) (busy : s.busy = false) (start : s.pins.start = false) :
    NextState s (hostDrives s)

/-- Every step answers a state of one of the five kinds. -/
theorem nextState_of_step {s t : State} (h : step s = .next t) : NextState s t := by
  rcases step_cases s with ⟨hr, e⟩ | ⟨hr, hb, he, e⟩ | ⟨hr, hb, he, e⟩ | ⟨hr, hb, hs, e⟩ | ⟨hr, hb, hs, e⟩ <;>
    (rw [e] at h; cases h)
  · exact .reset hr
  · exact .complete ⟨hr, hb, he⟩
  · exact .await hr hb he
  · exact .accept hr hb hs
  · exact .idle hr hb hs

/-- The equation of a completing edge, from the statements' own word for it (R191). -/
theorem step_of_completing {s : State} (h : completing s) :
    step s = .next (complete (transact s.lq (currentDraw s)) (hostDrives s)) := by
  obtain ⟨hrst, hbusy, hedges⟩ := h
  exact step_completing hrst hbusy hedges

/-- A legal command is answered by its operation (R170). -/
theorem transact_of_decode_ok {q : Request} {i : Instr} (h : decode q.cmd = .ok i) (d : NanDraw) :
    transact q d = respond i q d := by
  simp [transact, h]

/-- Settles O4: `step_busy_withPins` says that the two edges differ in the pins alone (R26, R190). -/
theorem busyBlockIgnoresThePorts : Obligations.BusyBlockIgnoresThePorts := by
  unfold Obligations.BusyBlockIgnoresThePorts
  intro s p hbusy hrst hp
  obtain ⟨t, u, ht, hu, hlq, hpins⟩ := step_busy_withPins hbusy hrst hp
  refine ⟨t, u, ht, hu, ?_⟩
  rw [← hpins]
  exact ⟨rfl, rfl, rfl, rfl, rfl, rfl, hlq⟩

/-- Settles O7: of the five kinds of edge only the reset and the completing one write a response (R44, R191). -/
theorem responseChangesOnlyAtCompletion : Obligations.ResponseChangesOnlyAtCompletion := by
  unfold Obligations.ResponseChangesOnlyAtCompletion
  intro s t hstep hresp
  cases nextState_of_step hstep with
  | reset hrst => exact .inl hrst
  | complete hdue => exact .inr ⟨hdue, complete_busy _ _, complete_done _ _⟩
  | await | accept | idle => exact absurd (by simp) hresp

/-- Settles O57: a completing edge delivers Exec of the latched request, which is well formed
(`transact_wellFormed`, R174). -/
theorem errorsCarryNoValue : Obligations.ErrorsCarryNoValue := by
  unfold Obligations.ErrorsCarryNoValue
  intro s hdue
  obtain ⟨⟨herror, -⟩, -⟩ := transact_wellFormed s.lq (currentDraw s)
  refine ⟨_, step_of_completing hdue, complete_busy _ _, complete_done _ _, ?_, herror⟩
  rw [complete_lq, hostDrives_lq]

/-- Settles O5: a waiting edge is `awaitEdge`, which counts down and writes nothing else (R191). -/
theorem waitingEdgeWritesNothing : Obligations.WaitingEdgeWritesNothing := by
  unfold Obligations.WaitingEdgeWritesNothing
  intro s hrst hbusy hedges
  refine ⟨_, step_waiting hrst hbusy hedges, ?_⟩
  simp [hbusy, Nat.sub_add_cancel hedges.le]

/-- Settles O6: an idle edge is the host's drive alone, which no register of the block sees (R191). -/
theorem idleEdgeKeepsTheResponse : Obligations.IdleEdgeKeepsTheResponse := by
  unfold Obligations.IdleEdgeKeepsTheResponse
  intro s hrst hstart hbusy
  refine ⟨_, step_idle hrst hbusy hstart, ?_⟩
  simp [hbusy]

/-- Settles O8: both sides complete with the operation's response to the latched request (`exec_eq`, R170). -/
theorem completingStepRunsTheDecodedInstruction : Obligations.CompletingStepRunsTheDecodedInstruction := by
  unfold Obligations.CompletingStepRunsTheDecodedInstruction
  intro s i hdue hdecode
  rw [step_of_completing hdue, transact_of_decode_ok hdecode, exec_eq, hostDrives_lq, currentDraw_hostDrives]

/-- Settles O15: an operation completes with `respond`, a function of the latched request and the draw (R31). -/
theorem responseIgnoresEarlierTransactions : Obligations.ResponseIgnoresEarlierTransactions := by
  unfold Obligations.ResponseIgnoresEarlierTransactions
  intro i s s' t t' hlq hdraws ht ht'
  rw [exec_eq] at ht ht'
  cases ht
  cases ht'
  simp [currentDraw, hlq, hdraws]

/-- Settles O58: every operation is a completion (`exec_eq`), whose fields are known one by one (R176, R192). -/
theorem everyOperationCompletesAndKeepsTheRest : Obligations.EveryOperationCompletesAndKeepsTheRest := by
  unfold Obligations.EveryOperationCompletesAndKeepsTheRest
  exact fun i s => ⟨_, exec_eq i s, complete_pins _ _, complete_drive _ _, complete_lq _ _, complete_busy _ _,
    complete_done _ _, complete_edgesLeft _ _, complete_draws _ _⟩

end Sys2Proof.Machine
end

section
/-! The three invariants: each shared operation of a step keeps them, and so does every step; the settlement of the
statements about them (R5, R31, R32, R190, R191). -/

namespace Sys2Proof.Machine

/-! `HandshakeInv`: what each kind of edge needs to establish it. -/

theorem responseWellFormed_zeroResponse : responseWellFormed zeroResponse :=
  ⟨fun h => absurd zeroResponse_rErr h, .inl ⟨zeroResponse_rM, zeroResponse_rE, zeroResponse_rBits⟩⟩

@[simp] theorem handshakeInv_hostDrives (s : State) : HandshakeInv (hostDrives s) ↔ HandshakeInv s := by
  simp [HandshakeInv]

theorem handshakeInv_resetBlock (s : State) : HandshakeInv (resetBlock s) := by
  simp [HandshakeInv, responseWellFormed_zeroResponse]

theorem handshakeInv_complete {r : Response} (hr : responseWellFormed r) (s : State) :
    HandshakeInv (complete r s) := by
  simp [HandshakeInv, hr]

/-- A transaction takes at least one edge (R5). -/
theorem one_le_latency (q : Request) : 1 ≤ Config.latency q := Nat.le_add_left 1 _

theorem handshakeInv_accept {s : State} (h : responseWellFormed s.resp) (q : Request) :
    HandshakeInv (accept q s) := by
  simp [HandshakeInv, h, one_le_latency]

/-- One edge fewer is left, and at least one: the transaction is still in progress. -/
theorem handshakeInv_awaitEdge {s : State} (h : HandshakeInv s) (hbusy : s.busy = true) (hedges : 1 < s.edgesLeft) :
    HandshakeInv (awaitEdge s) := by
  obtain ⟨hdone, -, hlatency, hresp, -⟩ := h
  refine ⟨hdone, iff_of_true hbusy ?_, (Nat.sub_le _ _).trans hlatency, hresp, fun hidle => ?_⟩
  · rw [awaitEdge_edgesLeft]
    omega
  · rw [awaitEdge_busy, hbusy] at hidle
    cases hidle

/-- Settles O11: each kind of edge establishes the invariant by its own lemma. -/
theorem stepKeepsHandshakeInvariant : Obligations.StepKeepsHandshakeInvariant := by
  unfold Obligations.StepKeepsHandshakeInvariant
  intro s t hs hstep
  have hdriven := (handshakeInv_hostDrives s).mpr hs
  have ⟨_, _, _, hresp, _⟩ := hdriven
  cases nextState_of_step hstep with
  | reset => exact handshakeInv_resetBlock _
  | complete => exact handshakeInv_complete (transact_wellFormed _ _).1 _
  | await _ hbusy hedges => exact handshakeInv_awaitEdge hdriven (by simpa using hbusy) (by simpa using hedges)
  | accept => exact handshakeInv_accept hresp _
  | idle => exact hdriven

/-- Settles O13: a completing edge writes Exec of the latched request; a reset and an accepting edge leave DONE = 0; a
waiting and an idle edge keep DONE, the request and the response (R31, R45). -/
theorem stepKeepsResponseOfRequest : Obligations.StepKeepsResponseOfRequest := by
  unfold Obligations.StepKeepsResponseOfRequest
  intro s t hs hstep
  cases nextState_of_step hstep with
  | reset | accept => exact fun hdone => by cases hdone
  | complete => exact fun _ => ⟨currentDraw s, by simp⟩
  | await | idle => simpa [responseOfRequest] using hs

/-! `portsFit`: the pins, the drive, the latched request and `R_BITS`. -/

theorem requestFits_zeroRequest : requestFits zeroRequest := by
  simp [requestFits]

/-- The host's next drive fits where what it still had to drive fits (log entry 5). -/
theorem portsFit_hostDrives {s : State} (h : portsFit s) : portsFit (hostDrives s) := by
  obtain ⟨hpins, hdrive, hlq, hbits⟩ := h
  refine ⟨?_, fun p hp => hdrive p (mem_hostDrives_drive hp), by rwa [hostDrives_lq], by rwa [hostDrives_resp]⟩
  rcases hostDrives_pins s with e | e
  · rwa [e]
  · exact hdrive _ e

/-- Settles O12: all that an edge writes to `LQ` and `R_BITS` is the request on the pins, zeros or a response of the
block, and each of them fits (R5, R25, R61). -/
theorem stepKeepsPortWidths : Obligations.StepKeepsPortWidths := by
  unfold Obligations.StepKeepsPortWidths
  intro s t hs hstep
  have ⟨hreq, _⟩ := hs
  obtain ⟨hpins, hdrive, hlq, hbits⟩ := portsFit_hostDrives hs
  cases nextState_of_step hstep with
  | reset => exact ⟨hpins, hdrive, requestFits_zeroRequest, by simp⟩
  | complete => exact ⟨hpins, hdrive, hlq, (transact_wellFormed _ _).2⟩
  | accept => exact ⟨hpins, hdrive, hreq, hbits⟩
  | await | idle => exact ⟨hpins, hdrive, hlq, hbits⟩

/-- Settles O14: at reset BUSY = DONE = 0, no edges are left, and every port and register is zero (R32). -/
theorem invariantsHoldAtReset : Obligations.InvariantsHoldAtReset := by
  unfold Obligations.InvariantsHoldAtReset
  refine ⟨handshakeInv_resetBlock State.reset, ⟨requestFits_zeroRequest, ?_, requestFits_zeroRequest, ?_⟩, ?_⟩
  · exact fun p hp => absurd hp List.not_mem_nil
  · simp
  · exact fun hdone => by cases hdone

end Sys2Proof.Machine
end

section
/-! A transaction from its acceptance to its completion, and the settlement of the statement about it (R190 to R192,
R198). -/

namespace Sys2Proof.Machine

/-- The transaction on the request `q` is in progress, with `k` edges left, over the old response `r` and after `n`
draws, and no reset is to come. -/
structure InProgress (q : Request) (r : Response) (n k : Nat) (u : State) : Prop where
  noReset : noReset u
  busy : u.busy = true
  done : u.done = false
  lq : u.lq = q
  resp : u.resp = r
  draws : u.draws = n
  edgesLeft : u.edgesLeft = k

/-- A run of no steps ends where it begins. -/
theorem run_zero (s : State) : Host.Core.run Sys2Proof.core 0 s = .next s := rfl

/-- A run of one step is the step. -/
theorem run_one {s u : State} (h : step s = .next u) : Host.Core.run Sys2Proof.core 1 s = .next u := by
  rw [run_succ h, run_zero]

section
variable {q : Request} {r : Response} {n k : Nat} {u : State}

/-- The accepting edge begins a transaction with all its edges left (R190). -/
theorem step_begins_transaction {s : State} (hreset : noReset s) (hstart : s.pins.start = true)
    (hbusy : s.busy = false) :
    ∃ u, step s = .next u ∧ InProgress s.pins.req s.resp s.draws (Config.latency s.pins.req) u := by
  obtain ⟨hrst, hdrive⟩ := hreset
  refine ⟨_, step_accepting hrst hbusy hstart, ?_, accept_busy _ _, accept_done _ _, accept_lq _ _, ?_, ?_,
    accept_edgesLeft _ _⟩
  · exact hostDrives_rst hrst hdrive
  · rw [accept_resp, hostDrives_resp]
  · rw [accept_draws, hostDrives_draws]

/-- An edge that is not the last one goes on with the transaction (R191). -/
theorem step_continues_transaction (h : InProgress q r n (k + 1) u) (hk : 1 ≤ k) :
    ∃ v, step u = .next v ∧ InProgress q r n k v := by
  obtain ⟨⟨hrst, hdrive⟩, hbusy, hdone, hlq, hresp, hdraws, hedges⟩ := h
  refine ⟨_, step_waiting hrst hbusy (by omega), hostDrives_rst hrst hdrive, ?_, ?_, ?_, ?_, ?_, ?_⟩
  all_goals simp [*]

/-- The last edge answers Exec of the request and of the next draw (R191, R198). -/
theorem step_ends_transaction (h : InProgress q r n 1 u) :
    ∃ v, step u = .next v ∧ v.busy = false ∧ v.done = true ∧ v.lq = q ∧ v.resp = transact q (currentDraw u) ∧
      v.draws = n + 1 := by
  obtain ⟨⟨hrst, -⟩, hbusy, -, hlq, -, hdraws, hedges⟩ := h
  refine ⟨_, step_completing hrst hbusy hedges.le, complete_busy _ _, complete_done _ _, ?_, ?_, ?_⟩
  all_goals simp [hlq, hdraws]

/-- As long as an edge is left after them, `j` edges go on with the transaction (R191). -/
theorem run_continues_transaction (j : Nat) (h : InProgress q r n (k + j) u) (hk : 1 ≤ k) :
    ∃ v, Host.Core.run Sys2Proof.core j u = .next v ∧ InProgress q r n k v := by
  induction j generalizing u with
  | zero => exact ⟨u, run_zero u, h⟩
  | succ j ih =>
    obtain ⟨v, hv, hprogress⟩ := step_continues_transaction (k := k + j) h (by omega)
    rw [run_succ hv]
    exact ih hprogress

end

/-- From an idle block that is given a START, `k` edges with `k ≤ LAT` later the transaction is in progress with
`LAT + 1 - k` edges left (R190, R191). -/
theorem run_after_start {s : State} (hreset : noReset s) (hstart : s.pins.start = true) (hbusy : s.busy = false)
    {k : Nat} (hk : 1 ≤ k) (hlatency : k ≤ Config.latency s.pins.req) :
    ∃ u, Host.Core.run Sys2Proof.core k s = .next u ∧
      InProgress s.pins.req s.resp s.draws (Config.latency s.pins.req + 1 - k) u := by
  obtain ⟨u, hu, hprogress⟩ := step_begins_transaction hreset hstart hbusy
  obtain ⟨j, rfl⟩ : ∃ j, k = j + 1 := ⟨k - 1, by omega⟩
  rw [run_succ hu]
  refine run_continues_transaction j ?_ (by omega)
  rwa [show Config.latency s.pins.req + 1 - (j + 1) + j = Config.latency s.pins.req by omega]

/-- Settles O10: until the last edge the transaction is in progress (`run_after_start`), and the edge after that ends it
(`step_ends_transaction`). -/
theorem everyAcceptedTransactionCompletes : Obligations.EveryAcceptedTransactionCompletes := by
  unfold Obligations.EveryAcceptedTransactionCompletes
  intro s hreset hstart hbusy
  constructor
  · intro k hk hlatency
    obtain ⟨u, hrun, hu⟩ := run_after_start hreset hstart hbusy hk hlatency
    exact ⟨u, hrun, hu.busy, hu.done, hu.resp, hu.lq⟩
  · obtain ⟨u, hrun, hu⟩ := run_after_start hreset hstart hbusy (one_le_latency s.pins.req) le_rfl
    rw [Nat.add_sub_cancel_left] at hu
    obtain ⟨v, hv, hbusy', hdone, hlq, hresp, hdraws⟩ := step_ends_transaction hu
    have hdraw : currentDraw u = currentDraw s := by simp only [currentDraw, hu.draws]
    refine ⟨v, ?_, hbusy', hdone, hlq, hdraw ▸ hresp, hdraws⟩
    rw [Nat.add_comm, run_add 1 hrun, run_one hv]

end Sys2Proof.Machine
end

section
/-! The draw `d_nan`: where it can be seen and which values it takes, and the settlement of the statements about it
(R132, R133). -/

namespace Sys2Proof.Machine

/-- FSUB's response: FADD's sum for B with its sign inverted, behind the checks of both operands (R132, R170). -/
theorem respond_fsub (q : Request) (d : NanDraw) :
    respond .fsub q d = answer (checkBoth q) (valueResponse (tagOf q.a)
      (addValue (tagOf q.a) (drawnNaN (tagOf q.a) d) (valueOf q.a) (negate (valueOf q.b)))) := rfl

/-- Only the sum of opposite infinities depends on the draw (R133): by `addValue_comm` there and back. -/
theorem infinities_of_addValue_ne {F : Format} {a b d d' : Value} (h : addValue F d a b ≠ addValue F d' a b) :
    classOf F a = .inf ∧ classOf F b = .inf ∧ a.s ≠ b.s := by
  by_contra hpair
  have hswap : ¬(classOf F b = .inf ∧ classOf F a = .inf ∧ b.s ≠ a.s) :=
    fun ⟨hb, ha, hs⟩ => hpair ⟨ha, hb, hs.symm⟩
  exact h ((addValue_comm d d' hpair).trans (addValue_comm d' d' hswap))

/-- Two responses behind one check that differ carry two values that differ. -/
theorem value_ne_of_answer_ne {c : Option ErrorCode} {F : Format} {v w : Value}
    (h : answer c (valueResponse F v) ≠ answer c (valueResponse F w)) : v ≠ w :=
  fun hvw => h (by rw [hvw])

/-- Settles O16: FADD and FSUB answer a sum, which shows the draw for opposite infinities only
(`infinities_of_addValue_ne`); no other operation's response mentions it (R133). -/
theorem drawIsVisibleOnlyForCancellingInfinities : Obligations.DrawIsVisibleOnlyForCancellingInfinities := by
  unfold Obligations.DrawIsVisibleOnlyForCancellingInfinities
  intro i q d d' h
  cases i with
  | fadd =>
    rw [respond_fadd, respond_fadd] at h
    obtain ⟨ha, hb, hs⟩ := infinities_of_addValue_ne (value_ne_of_answer_ne h)
    exact ⟨ha, hb, .inl ⟨rfl, hs⟩⟩
  | fsub =>
    rw [respond_fsub, respond_fsub] at h
    obtain ⟨ha, hb, hs⟩ := infinities_of_addValue_ne (value_ne_of_answer_ne h)
    exact ⟨ha, hb, .inr ⟨rfl, by simpa [negate] using hs⟩⟩
  | fmul | fdiv | feq | fne | flt | fle | fgt | fge | fcast | fcvtXF64 | fcvtF64X | fclass | fsetzero | fsetinf
  | fsetnan => exact absurd rfl h

/-- Every NaN of a format is the draw of its own sign and of the number one below its mantissa (R133). -/
theorem drawnNaN_of_nan {F : Format} {v : Value} (hc : classOf F v = .nan) (hv : v.inFormat F = true) :
    drawnNaN F ⟨v.s, v.f - 1⟩ = v := by
  obtain ⟨s, x, f⟩ := v
  obtain ⟨-, hx, hf⟩ := classOf_nan_iff.mp hc
  obtain ⟨-, hlt⟩ := inFormat_iff.mp hv
  dsimp only at hx hf hlt
  have hmod : (f - 1) % (2 ^ F.m - 1) = f - 1 := Nat.mod_eq_of_lt (by omega)
  simp only [drawnNaN, hmod, hx, Value.mk.injEq, true_and]
  omega

/-- Settles O17: every NaN is a draw (`drawnNaN_of_nan`), and every draw is a NaN of its format (R133). -/
theorem drawsAreExactlyTheNaNs : Obligations.DrawsAreExactlyTheNaNs := by
  unfold Obligations.DrawsAreExactlyTheNaNs
  intro F v hF
  obtain ⟨hm, he, -⟩ := formatValid_bounds hF
  constructor
  · rintro ⟨hc, hv⟩
    exact ⟨_, drawnNaN_of_nan hc hv⟩
  · rintro ⟨d, rfl⟩
    exact ⟨classOf_drawnNaN he d, inFormat_drawnNaN hm d⟩

end Sys2Proof.Machine
end

section
/-! A value on a port and back, the bits that a port is not read at, and the settlement of the statements about ports
and about non-canonical zeros (R61, R102). -/

namespace Sys2Proof.Machine

/-- The packed number, field by field from the mantissa up (R60). -/
theorem packNat_eq (F : Format) (v : Value) : packNat F v = 2 ^ F.m * (2 ^ F.e * v.s.toNat + v.x) + v.f := by
  rw [packNat, pow_add]
  ring

/-- The last digit of a number and what stands above it are unique. -/
theorem digits_unique {n a a' r r' : Nat} (hr : r < n) (hr' : r' < n) (h : n * a + r = n * a' + r') :
    a = a' ∧ r = r' := by
  have hn : 0 < n := Nat.zero_lt_of_lt hr
  obtain ⟨hdiv, hmod⟩ := (Nat.div_mod_unique hn).mpr ⟨Nat.add_comm r _, hr⟩
  obtain ⟨hdiv', hmod'⟩ := (Nat.div_mod_unique hn).mpr ⟨(Nat.add_comm r' _).trans h.symm, hr'⟩
  exact ⟨hdiv.symm.trans hdiv', hmod.symm.trans hmod'⟩

/-- A sign is told by its number. -/
theorem sign_eq_of_toNat_eq : ∀ s s' : Bool, s.toNat = s'.toNat → s = s' := by decide

/-- A value of a format is told by its packed number (R60). -/
theorem eq_of_packNat_eq {F : Format} {v w : Value} (hv : v.inFormat F = true) (hw : w.inFormat F = true)
    (h : packNat F v = packNat F w) : v = w := by
  obtain ⟨s, x, f⟩ := v
  obtain ⟨s', x', f'⟩ := w
  obtain ⟨hx, hf⟩ := inFormat_iff.mp hv
  obtain ⟨hx', hf'⟩ := inFormat_iff.mp hw
  rw [packNat_eq, packNat_eq] at h
  dsimp only at *
  obtain ⟨hhigh, rfl⟩ := digits_unique hf hf' h
  obtain ⟨hsign, rfl⟩ := digits_unique hx hx' hhigh
  rw [sign_eq_of_toNat_eq s s' hsign]

/-- A value packed on a port is read back whole (R61). -/
theorem unpack_pack {F : Format} {v : Value} (hF : formatValid F = true) (hv : v.inFormat F = true) :
    unpack F (pack F v) = v := by
  apply eq_of_packNat_eq (inFormat_unpack F _) hv
  rw [packNat_unpack, pack_toNat hF hv, Nat.mod_eq_of_lt (packNat_lt hv)]

/-- Only the bits of the value's width are read (R61). -/
theorem unpack_congr {F : Format} {b c : PortWord} (h : ∀ j, j ≤ F.m + F.e → b.getLsbD j = c.getLsbD j) :
    unpack F b = unpack F c := by
  have hs : b.getLsbD (F.m + F.e) = c.getLsbD (F.m + F.e) := h _ le_rfl
  have hx : b.extractLsb' F.m F.e = c.extractLsb' F.m F.e := by
    apply BitVec.eq_of_getLsbD_eq
    intro j hj
    rw [BitVec.getLsbD_extractLsb', BitVec.getLsbD_extractLsb', h _ (by omega)]
  have hf : b.extractLsb' 0 F.m = c.extractLsb' 0 F.m := by
    apply BitVec.eq_of_getLsbD_eq
    intro j hj
    rw [BitVec.getLsbD_extractLsb', BitVec.getLsbD_extractLsb', h _ (by omega)]
  rw [unpack, hs, hx, hf, unpack]

/-- Settles O22: the value comes back (`unpack_pack`), and its number has no bit above the width (`packNat_lt`). -/
theorem unpackOfPackIsTheValue : Obligations.UnpackOfPackIsTheValue := by
  unfold Obligations.UnpackOfPackIsTheValue
  exact fun F v hF hv => ⟨unpack_pack hF hv, pack_toNat hF hv ▸ packNat_lt hv⟩

/-- Settles O23: every field of the value is read from the bits of its width (`unpack_congr`). -/
theorem highPortBitsAreIgnored : Obligations.HighPortBitsAreIgnored := by
  unfold Obligations.HighPortBitsAreIgnored
  exact fun F b c h => unpack_congr h

/-- The tag that a value response carries is the format of its value (R176). -/
theorem valueResponse_tag {F : Format} (hF : formatValid F = true) (v : Value) :
    (⟨(valueResponse F v).rM.toNat, (valueResponse F v).rE.toNat⟩ : Format) = F := by
  obtain ⟨-, -, hm, he, -⟩ := formatValid_bounds hF
  rw [valueResponse_rM, valueResponse_rE, BitVec.toNat_ofNat, BitVec.toNat_ofNat,
    Nat.mod_eq_of_lt (Nat.lt_succ_of_le hm), Nat.mod_eq_of_lt (Nat.lt_succ_of_le he)]

/-- Settles O53: a response with a format tag carries a value (`respond_shape`), which is read back from the port
(`unpack_pack`) and is canonical unless the operation is the identity cast (R102, R125). -/
theorem noNonCanonicalZeroIsProduced : Obligations.NoNonCanonicalZeroIsProduced := by
  unfold Obligations.NoNonCanonicalZeroIsProduced
  intro i s t hexec hcast htag
  have hresp : t.resp = respond i s.lq (currentDraw s) := by
    rw [exec_eq] at hexec
    cases hexec
    exact complete_resp _ _
  have hshape := respond_shape i s.lq (currentDraw s)
  rw [← hresp] at hshape
  generalize t.resp = r at hshape htag ⊢
  cases hshape with
  | error c => exact absurd (errorResponse_rM c) htag
  | word w => exact absurd (wordResponse_rM w) htag
  | value F v hF hv hcanonical =>
    rw [valueResponse_tag hF, valueResponse_rBits, unpack_pack hF hv]
    exact hcanonical hcast

end Sys2Proof.Machine
end

section
/-! Round-and-pack: the binade and the parity of the retained bits, what decides overflow and underflow, and the
settlement of the statements about the range, about the thresholds and about what it answers (R103, R121 to R127). -/

namespace Sys2Proof.Machine

/-- Powers of two compare as their exponents do. -/
theorem two_zpow_le {j k : Int} (h : j ≤ k) : (2 : ℚ) ^ j ≤ (2 : ℚ) ^ k := zpow_le_zpow_right₀ (by norm_num) h

theorem two_zpow_lt {j k : Int} (h : j < k) : (2 : ℚ) ^ j < (2 : ℚ) ^ k := zpow_lt_zpow_right₀ (by norm_num) h

/-- A natural power of two at an exponent. -/
theorem two_pow_mul_zpow (n : Nat) (k : Int) : (2 : ℚ) ^ n * (2 : ℚ) ^ k = (2 : ℚ) ^ ((n : Int) + k) := by
  rw [← zpow_natCast, ← zpow_add₀ (by norm_num)]

/-- The smallest exponent in terms of the bias (R101). -/
theorem emin_eq_bias (e : Nat) : emin e = 1 - (bias e : Int) := rfl

/-- Rounding to even reaches an even integer from half a unit below it on (R123). -/
theorem even_le_roundEven_iff {t : ℚ} {n : Int} (hn : n % 2 = 0) : n ≤ roundEven t ↔ (n : ℚ) - 1 / 2 ≤ t := by
  have hle := Int.floor_le t
  have hlt := Int.lt_floor_add_one t
  constructor
  · intro h
    have hnear := roundEven_near t
    rw [abs_le] at hnear
    have : (n : ℚ) ≤ roundEven t := by exact_mod_cast h
    linarith [hnear.1]
  · intro h
    have hfloor : n - 1 ≤ ⌊t⌋ := Int.le_floor.mpr (by push_cast; linarith)
    rcases roundEven_cases t with ⟨e, hdown⟩ | ⟨e, -⟩
    · by_contra hcontra
      have heq : ⌊t⌋ = n - 1 := by omega
      rw [heq] at hdown
      push_cast at hdown
      rcases hdown with hlow | ⟨-, heven⟩
      · linarith
      · omega
    · omega

/-- The rounded magnitude lies in the binade of the magnitude, or at its upper end (R121). -/
theorem roundedMag_binade {q : ℚ} (hq : 0 < q) (m : Nat) :
    (2 : ℚ) ^ ilog2 q ≤ roundedMag m q ∧ roundedMag m q ≤ (2 : ℚ) ^ (ilog2 q + 1) := by
  obtain ⟨hlow, hhigh⟩ := roundEven_scaled_range hq m
  have hpos := two_zpow_pos (ilog2 q - m)
  constructor
  · calc (2 : ℚ) ^ ilog2 q = (2 : ℚ) ^ m * (2 : ℚ) ^ (ilog2 q - m) := by rw [two_pow_mul_zpow]; congr 1; omega
      _ ≤ roundedMag m q := by unfold roundedMag; gcongr; exact_mod_cast hlow
  · calc roundedMag m q ≤ (2 : ℚ) ^ (m + 1) * (2 : ℚ) ^ (ilog2 q - m) := by
          unfold roundedMag; gcongr; exact_mod_cast hhigh
      _ = (2 : ℚ) ^ (ilog2 q + 1) := by rw [two_pow_mul_zpow]; congr 1; push_cast; omega

/-- Within the binade of `K`, rounding reaches the next power of two from half a unit below it on. -/
theorem pow_le_roundedMag_iff_of_ilog2 (m : Nat) {q : ℚ} {K : Int} (hK : ilog2 q = K) :
    (2 : ℚ) ^ (K + 1) ≤ roundedMag m q ↔ (2 : ℚ) ^ (K + 1) - (2 : ℚ) ^ (K - m - 1) ≤ q := by
  have hunit := two_zpow_pos (K - m)
  have hscale : q = q * (2 : ℚ) ^ ((m : Int) - K) * (2 : ℚ) ^ (K - m) := by
    rw [mul_assoc, ← zpow_add₀ (by norm_num)]
    simp
  have hpow : (2 : ℚ) ^ (K + 1) = ((2 ^ (m + 1) : Int) : ℚ) * (2 : ℚ) ^ (K - m) := by
    push_cast
    rw [two_pow_mul_zpow]
    congr 1
    push_cast
    omega
  have hhalf : (2 : ℚ) ^ (K - m - 1) = 1 / 2 * (2 : ℚ) ^ (K - m) := by
    rw [zpow_sub_one₀ (by norm_num)]
    ring
  have heven : (2 ^ (m + 1) : Int) % 2 = 0 := by
    rw [pow_succ]
    omega
  rw [roundedMag, hK, hpow, hhalf, mul_le_mul_iff_of_pos_right hunit, Int.cast_le, even_le_roundEven_iff heven,
    ← sub_mul]
  conv_rhs => rw [hscale, mul_le_mul_iff_of_pos_right hunit]

/-- A magnitude rounds to a power of two or above from half a unit of the binade below it on (R121, R124). -/
theorem pow_le_roundedMag_iff (m : Nat) {q : ℚ} (hq : 0 < q) (K : Int) :
    (2 : ℚ) ^ (K + 1) ≤ roundedMag m q ↔ (2 : ℚ) ^ (K + 1) - (2 : ℚ) ^ (K - m - 1) ≤ q := by
  obtain ⟨hle, hlt⟩ := ilog2_spec hq
  obtain ⟨hlow, hhigh⟩ := roundedMag_binade hq m
  have hhalf := two_zpow_pos (K - m - 1)
  rcases lt_trichotomy (ilog2 q) K with hK | hK | hK
  · have hbinade := two_zpow_le (show ilog2 q + 1 ≤ K by omega)
    have hnext := two_zpow_lt (show K < K + 1 by omega)
    have hunit := two_zpow_le (show K - m - 1 ≤ K by omega)
    have hdouble : (2 : ℚ) ^ (K + 1) = 2 * (2 : ℚ) ^ K := by rw [zpow_add_one₀ (by norm_num)]; ring
    exact iff_of_false (by linarith) (by linarith)
  · exact pow_le_roundedMag_iff_of_ilog2 m hK
  · have hbinade := two_zpow_le (show K + 1 ≤ ilog2 q by omega)
    exact iff_of_true (by linarith) (by linarith)

section
variable {F : Format} {s : Bool} {q : ℚ}

theorem infV_ne_zeroV (he : 2 ≤ F.e) (s : Bool) : infV F s ≠ zeroV F s := by
  intro h
  have hclass := classOf_infV he s
  rw [h, classOf_zeroV] at hclass
  cases hclass

/-- Overflow is told by the rounded magnitude (R124, R126). -/
theorem roundPack_eq_infV_iff (he : 2 ≤ F.e) (hq : 0 < q) :
    roundPack F s q = infV F s ↔ (2 : ℚ) ^ ((bias F.e : Int) + 1) ≤ roundedMag F.m q := by
  have hrange := two_zpow_le (show 1 - (bias F.e : Int) ≤ bias F.e + 1 by omega)
  rcases roundPack_cases he s hq with ⟨hmag, e⟩ | ⟨hmag, e⟩ | ⟨-, hmag, -, -, hn, -⟩
  · exact iff_of_true e hmag
  · refine iff_of_false ?_ (hmag.trans_le hrange).not_ge
    rw [e]
    exact (infV_ne_zeroV he s).symm
  · refine iff_of_false (fun h => ?_) hmag.not_ge
    rw [h, classOf_infV he] at hn
    cases hn

/-- Underflow is told by the rounded magnitude (R124, R125). -/
theorem roundPack_eq_zeroV_iff (he : 2 ≤ F.e) (hq : 0 < q) :
    roundPack F s q = zeroV F s ↔ roundedMag F.m q < (2 : ℚ) ^ (1 - (bias F.e : Int)) := by
  have hrange := two_zpow_le (show 1 - (bias F.e : Int) ≤ bias F.e + 1 by omega)
  rcases roundPack_cases he s hq with ⟨hmag, e⟩ | ⟨hmag, e⟩ | ⟨hmag, -, -, -, hn, -⟩
  · refine iff_of_false ?_ (hrange.trans hmag).not_gt
    rw [e]
    exact infV_ne_zeroV he s
  · exact iff_of_true e hmag
  · refine iff_of_false (fun h => ?_) hmag.not_gt
    rw [h, classOf_zeroV] at hn
    cases hn

end

/-- Settles O24: `mag_range`, with `emin` and `emax` in terms of the bias (R101, R103). -/
theorem normalMagnitudesLieInTheFormatRange : Obligations.NormalMagnitudesLieInTheFormatRange := by
  unfold Obligations.NormalMagnitudesLieInTheFormatRange
  intro F v hF hv hc
  obtain ⟨-, he, -⟩ := formatValid_bounds hF
  rw [emin_eq_bias, emax_eq_bias he]
  exact mag_range he hv hc

/-- Settles O25: `roundPack_mag` (R127). -/
theorem roundPackKeepsNormalValues : Obligations.RoundPackKeepsNormalValues := by
  unfold Obligations.RoundPackKeepsNormalValues
  intro F v hF hv hc
  obtain ⟨-, he, -⟩ := formatValid_bounds hF
  exact roundPack_mag he hv hc

/-- Settles O28: the rounded magnitude reaches `2^(emax+1)` from half a unit below it on (R124, R126). -/
theorem roundPackOverflowThreshold : Obligations.RoundPackOverflowThreshold := by
  unfold Obligations.RoundPackOverflowThreshold
  intro F s q hF hq
  obtain ⟨-, he, -⟩ := formatValid_bounds hF
  rw [roundPack_eq_infV_iff he hq, emax_eq_bias he]
  exact pow_le_roundedMag_iff F.m hq _

/-- Settles O29: the rounded magnitude stays below `2^emin` up to half a unit of the binade below it (R124, R125). -/
theorem roundPackUnderflowThreshold : Obligations.RoundPackUnderflowThreshold := by
  unfold Obligations.RoundPackUnderflowThreshold
  intro F s q hF hq
  obtain ⟨-, he, -⟩ := formatValid_bounds hF
  have hreach := pow_le_roundedMag_iff F.m hq (-(bias F.e : Int))
  have hexp : -(bias F.e : Int) + 1 = emin F.e := by rw [emin_eq_bias]; omega
  have hunit : -(bias F.e : Int) - F.m - 1 = emin F.e - F.m - 2 := by omega
  rw [hexp, hunit] at hreach
  rw [roundPack_eq_zeroV_iff he hq, ← emin_eq_bias, ← not_le, hreach, not_le]

/-- Settles O30: the three cases of `roundPack_cases` (R125, R126). -/
theorem roundPackAnswersCanonicalValues : Obligations.RoundPackAnswersCanonicalValues := by
  unfold Obligations.RoundPackAnswersCanonicalValues
  intro F s q hF hq
  obtain ⟨-, he, -⟩ := formatValid_bounds hF
  rcases roundPack_cases he s hq with ⟨-, e⟩ | ⟨-, e⟩ | ⟨-, -, hs, hin, hn, -⟩
  · exact ⟨e ▸ rfl, e ▸ inFormat_infV F s, .inr (.inl e)⟩
  · exact ⟨e ▸ rfl, e ▸ inFormat_zeroV F s, .inl e⟩
  · exact ⟨hs, hin, .inr (.inr hn)⟩

end Sys2Proof.Machine
end

section
/-! Round-and-pack rounds to nearest, ties to even, and the settlement of the statement about it (R121 to R123). -/

namespace Sys2Proof.Machine

/-- The retained bits after rounding, the significand before a carry out of the mantissa (R121). -/
def retainedBits (m : Nat) (q : ℚ) : Int := roundEven (q * (2 : ℚ) ^ ((m : Int) - ilog2 q))

/-- The rounded magnitude is the retained bits at the weight of the last of them. -/
theorem roundedMag_eq (m : Nat) (q : ℚ) : roundedMag m q = (retainedBits m q : ℚ) * (2 : ℚ) ^ (ilog2 q - m) := rfl

/-- Round-and-pack packs the retained bits at the magnitude's exponent (R121). -/
theorem roundPack_eq_carryPack (F : Format) (s : Bool) (q : ℚ) :
    roundPack F s q = carryPack F s (retainedBits F.m q) (ilog2 q) := rfl

/-- Any integer but the rounded one is at least half a unit away. -/
theorem half_le_abs_sub {t : ℚ} {n : Int} (h : n ≠ roundEven t) : 1 / 2 ≤ |t - n| := by
  have hone : (1 : ℚ) ≤ |((roundEven t - n : Int) : ℚ)| := by
    exact_mod_cast Int.one_le_abs (sub_ne_zero.mpr h.symm)
  have htriangle : |((roundEven t - n : Int) : ℚ)| ≤ |t - roundEven t| + |t - n| := by
    push_cast
    rw [abs_sub_comm t]
    exact abs_sub_le _ _ _
  linarith [roundEven_near t]

/-- Rounding answers a nearest integer (R121). -/
theorem roundEven_nearest (t : ℚ) (n : Int) : |t - roundEven t| ≤ |t - n| := by
  by_cases h : n = roundEven t
  · rw [h]
  · exact (roundEven_near t).trans (half_le_abs_sub h)

/-- Of two nearest integers it answers the even one (R123). -/
theorem roundEven_even_of_tie {t : ℚ} {n : Int} (h : n ≠ roundEven t) (htie : |t - roundEven t| = |t - n|) :
    roundEven t % 2 = 0 := by
  have hhalf := half_le_abs_sub h
  rw [← htie] at hhalf
  rcases roundEven_cases t with ⟨e, hfrac | ⟨-, heven⟩⟩ | ⟨e, hfrac | ⟨-, hodd⟩⟩
  · have hle := Int.floor_le t
    rw [e, abs_of_nonneg (by linarith)] at hhalf
    linarith
  · omega
  · have hlt := Int.lt_floor_add_one t
    rw [e, abs_of_neg (by push_cast; linarith)] at hhalf
    push_cast at hhalf
    linarith
  · omega

/-- The distance between a magnitude and a multiple of the last retained bit's weight, in units of that weight. -/
theorem abs_sub_mul_weight (m : Nat) (q : ℚ) (n : Int) :
    |q - n * (2 : ℚ) ^ (ilog2 q - m)| =
      |q * (2 : ℚ) ^ ((m : Int) - ilog2 q) - n| * (2 : ℚ) ^ (ilog2 q - m) := by
  rw [← abs_of_pos (two_zpow_pos (ilog2 q - m)), ← abs_mul, sub_mul, mul_assoc,
    abs_of_pos (two_zpow_pos (ilog2 q - m)), ← zpow_add₀ (by norm_num)]
  simp

/-- No multiple of that weight is nearer than the rounded magnitude (R121). -/
theorem roundedMag_nearest_multiple (m : Nat) (q : ℚ) (n : Int) :
    |q - roundedMag m q| ≤ |q - n * (2 : ℚ) ^ (ilog2 q - m)| := by
  rw [roundedMag_eq, abs_sub_mul_weight, abs_sub_mul_weight]
  exact mul_le_mul_of_nonneg_right (roundEven_nearest _ n) (two_zpow_pos _).le

/-- Where another multiple is as near, the retained bits are even (R123). -/
theorem retainedBits_even_of_tie {m : Nat} {q : ℚ} {n : Int} (hne : n * (2 : ℚ) ^ (ilog2 q - m) ≠ roundedMag m q)
    (htie : |q - roundedMag m q| = |q - n * (2 : ℚ) ^ (ilog2 q - m)|) : retainedBits m q % 2 = 0 := by
  rw [roundedMag_eq] at hne htie
  rw [abs_sub_mul_weight, abs_sub_mul_weight, mul_left_inj' (two_zpow_pos _).ne'] at htie
  exact roundEven_even_of_tie (fun h => hne (by rw [h, retainedBits])) htie

/-- A value of the format is a multiple of that weight, or lies below the magnitude's binade (R103). -/
theorem mag_multiple_or_below {F : Format} {v : Value} (hf : v.f < 2 ^ F.m) (q : ℚ) :
    (∃ n : Int, mag F v = n * (2 : ℚ) ^ (ilog2 q - F.m)) ∨ mag F v < (2 : ℚ) ^ ilog2 q := by
  rcases le_or_gt (ilog2 q) ((v.x : Int) - bias F.e) with hexp | hexp
  · obtain ⟨j, hj⟩ := Int.eq_ofNat_of_zero_le (sub_nonneg.mpr hexp)
    refine .inl ⟨significand F v * 2 ^ j, ?_⟩
    push_cast
    rw [mag, mul_assoc, two_pow_mul_zpow]
    congr 2
    omega
  · obtain ⟨-, hlt⟩ := ilog2_spec (mag_pos F v)
    rw [ilog2_mag hf] at hlt
    exact .inr (hlt.trans_le (two_zpow_le hexp))

/-- A value below the magnitude's binade is farther away than the binade's lower end, which is a multiple. -/
theorem roundedMag_nearer_of_below (m : Nat) {q r : ℚ} (hq : 0 < q) (h : r < (2 : ℚ) ^ ilog2 q) :
    |q - roundedMag m q| < |q - r| := by
  obtain ⟨hle, -⟩ := ilog2_spec hq
  have hend : ((2 ^ m : Int) : ℚ) * (2 : ℚ) ^ (ilog2 q - m) = (2 : ℚ) ^ ilog2 q := by
    push_cast
    rw [two_pow_mul_zpow]
    congr 1
    omega
  calc |q - roundedMag m q| ≤ |q - (2 : ℚ) ^ ilog2 q| := hend ▸ roundedMag_nearest_multiple m q (2 ^ m)
    _ = q - (2 : ℚ) ^ ilog2 q := abs_of_nonneg (by linarith)
    _ < q - r := by linarith
    _ = |q - r| := (abs_of_nonneg (by linarith)).symm

/-- A NORMAL result has the rounded magnitude (R121). -/
theorem mag_roundPack_of_normal {F : Format} {s : Bool} {q : ℚ} (he : 2 ≤ F.e) (hq : 0 < q)
    (hn : classOf F (roundPack F s q) = .normal) : mag F (roundPack F s q) = roundedMag F.m q := by
  rcases roundPack_cases he s hq with ⟨-, e⟩ | ⟨-, e⟩ | ⟨-, -, -, -, -, hmag⟩
  · rw [e, classOf_infV he] at hn
    cases hn
  · rw [e, classOf_zeroV] at hn
    cases hn
  · exact hmag

/-- A NORMAL result's mantissa is even where the retained bits are, a carry out of the mantissa included (R121). -/
theorem roundPack_f_even {F : Format} {s : Bool} {q : ℚ} (hm : 1 ≤ F.m) (he : 2 ≤ F.e) (hq : 0 < q)
    (hn : classOf F (roundPack F s q) = .normal) (heven : retainedBits F.m q % 2 = 0) :
    (roundPack F s q).f % 2 = 0 := by
  have hpow : (2 ^ F.m : Int) % 2 = 0 := by
    obtain ⟨m, hm'⟩ : ∃ m, F.m = m + 1 := ⟨F.m - 1, by omega⟩
    rw [hm', pow_succ]
    omega
  have hpacked : ∃ n k : Int, roundPack F s q = packNormal F s n k ∧ (2 : Int) ^ F.m ≤ n ∧
      n < (2 : Int) ^ (F.m + 1) ∧ n % 2 = 0 := by
    obtain ⟨hlow, hhigh⟩ := roundEven_scaled_range hq F.m
    rw [roundPack_eq_carryPack]
    rcases carryPack_cases F s (ilog2 q) hhigh with ⟨e, hlt⟩ | ⟨e, -⟩
    · exact ⟨_, _, e, hlow, hlt, heven⟩
    · exact ⟨_, _, e, le_rfl, pow_lt_pow_right₀ (by decide) (by omega), hpow⟩
  obtain ⟨n, k, e, hlow, hhigh, hn2⟩ := hpacked
  rw [e] at hn ⊢
  rcases packNormal_cases he s hlow hhigh with ⟨-, e'⟩ | ⟨-, e'⟩ | ⟨-, -, -, -, hf, -⟩
  · rw [e', classOf_infV he] at hn
    cases hn
  · rw [e', classOf_zeroV] at hn
    cases hn
  · omega

/-- Settles O27: a value of the format is a multiple of the last retained bit's weight, of which the rounded magnitude is
a nearest, or lies below the binade and is farther away (R121, R123). -/
theorem roundPackIsNearestTiesToEven : Obligations.RoundPackIsNearestTiesToEven := by
  unfold Obligations.RoundPackIsNearestTiesToEven
  intro F s q v hF hq hv _ hn
  obtain ⟨hm, he, -⟩ := formatValid_bounds hF
  obtain ⟨-, hf⟩ := inFormat_iff.mp hv
  rw [mag_roundPack_of_normal he hq hn]
  rcases mag_multiple_or_below hf q with ⟨n, hmultiple⟩ | hbelow
  · rw [hmultiple]
    exact ⟨roundedMag_nearest_multiple F.m q n,
      fun htie hne => roundPack_f_even hm he hq hn (retainedBits_even_of_tie hne htie)⟩
  · have hfarther := roundedMag_nearer_of_below F.m hq hbelow
    exact ⟨hfarther.le, fun htie _ => absurd htie hfarther.ne⟩

end Sys2Proof.Machine
end

section
/-! The extended value of a negated value and of a rounded one, and the settlement of the statement that round-and-pack
is monotone (R127, R132, R151). -/

namespace Sys2Proof.Machine

/-- The extended rational with its sign inverted. -/
def extNeg : ExtRat → ExtRat
  | .negInf => .posInf
  | .fin q => .fin (-q)
  | .posInf => .negInf

/-- Negation inverts the order. -/
theorem order_extNeg_lt_iff {x y : ExtRat} :
    Statements.order (extNeg x) < Statements.order (extNeg y) ↔ Statements.order y < Statements.order x := by
  rw [← extLt_iff, ← extLt_iff]
  cases x <;> cases y <;> simp [extNeg, extLt]

theorem order_extNeg_le_iff {x y : ExtRat} :
    Statements.order (extNeg x) ≤ Statements.order (extNeg y) ↔ Statements.order y ≤ Statements.order x := by
  rw [← not_lt, ← not_lt, order_extNeg_lt_iff]

theorem order_fin_le_iff {p q : ℚ} : Statements.order (.fin p) ≤ Statements.order (.fin q) ↔ p ≤ q := by
  simp [Statements.order]

theorem order_fin_lt_iff {p q : ℚ} : Statements.order (.fin p) < Statements.order (.fin q) ↔ p < q := by
  simp [Statements.order]

theorem order_le_posInf (x : ExtRat) : Statements.order x ≤ Statements.order .posInf :=
  extLe_iff.mp (by cases x <;> simp [extLe, extLt])

theorem order_fin_lt_posInf (q : ℚ) : Statements.order (.fin q) < Statements.order .posInf := extLt_iff.mp rfl

/-! `ext`: the extended value by class (R151). -/

theorem ext_of_zero {F : Format} {v : Value} (hc : classOf F v = .zero) : ext F v = .fin 0 := by
  simp [ext, hc]

theorem ext_of_normal {F : Format} {v : Value} (hc : classOf F v = .normal) :
    ext F v = .fin (signed v.s (mag F v)) := by
  simp [ext, hc]

theorem ext_of_inf {F : Format} {v : Value} (hc : classOf F v = .inf) :
    ext F v = if v.s then .negInf else .posInf := by
  simp [ext, hc]

/-- Inverting the sign bit negates the extended value, a zero's included (R132, R151). -/
theorem ext_negate (F : Format) (v : Value) : ext F (negate v) = extNeg (ext F v) := by
  have hs : (negate v).s = !v.s := rfl
  have hmag : mag F (negate v) = mag F v := rfl
  unfold ext
  rw [classOf_negate, hs, hmag]
  cases classOf F v <;> cases v.s <;> simp [extNeg, signed]

/-- Round-and-pack treats the sign apart from the magnitude (R121). -/
theorem roundPack_not (F : Format) (s : Bool) (q : ℚ) : roundPack F (!s) q = negate (roundPack F s q) := by
  unfold roundPack carryPack packNormal
  dsimp only
  split_ifs <;> rfl

/-- Round-and-pack is monotone on positive results: the rounded magnitude is, and so is the range check (R127). -/
theorem order_ext_roundPack_mono {F : Format} (he : 2 ≤ F.e) {p q : ℚ} (hp : 0 < p) (h : p ≤ q) :
    Statements.order (ext F (roundPack F false p)) ≤ Statements.order (ext F (roundPack F false q)) := by
  have hmono := roundedMag_mono F.m hp h
  rcases roundPack_cases he false (hp.trans_le h) with ⟨-, eq⟩ | ⟨hq, eq⟩ | ⟨-, hq, sq, -, nq, mq⟩
  · rw [eq, ext_of_inf (classOf_infV he false)]
    exact order_le_posInf _
  · have hzero := (roundPack_eq_zeroV_iff (s := false) he hp).mpr (hmono.trans_lt hq)
    rw [eq, hzero]
  · rw [ext_of_normal nq, sq, mq]
    rcases roundPack_cases he false hp with ⟨hp', -⟩ | ⟨-, ep⟩ | ⟨-, -, sp, -, np, mp⟩
    · exact absurd (hmono.trans_lt hq) hp'.not_gt
    · rw [ep, ext_of_zero (classOf_zeroV F false), order_fin_le_iff, ← mq]
      exact (mag_pos _ _).le
    · rw [ext_of_normal np, sp, mp, order_fin_le_iff]
      exact hmono

/-- Settles O26: the positive results are monotone, and the negative ones are their negations (R127). -/
theorem roundPackIsMonotone : Obligations.RoundPackIsMonotone := by
  unfold Obligations.RoundPackIsMonotone
  intro F p q hF hp h
  obtain ⟨-, he, -⟩ := formatValid_bounds hF
  have hmono := order_ext_roundPack_mono he hp h
  refine ⟨hmono, ?_⟩
  rwa [← Bool.not_false, roundPack_not, roundPack_not, ext_negate, ext_negate, order_extNeg_le_iff]

end Sys2Proof.Machine
end

section
/-! FSUB as FADD with B's sign inverted, in the value and on the port, and the settlement of the statements about FSUB
(R132). -/

namespace Sys2Proof.Machine

/-- Settles O32: FSUB answers FADD's sum for B with its sign inverted behind the checks of both operands, and the sum
satisfies R131's table (R131, R132, R170). -/
theorem fsubDeliversTheRoundedDifference : Obligations.FsubDeliversTheRoundedDifference := by
  unfold Obligations.FsubDeliversTheRoundedDifference
  refine ⟨fun _ _ => rfl, fun s => ⟨pairErrors_of_checkBoth (respond_fsub _ _), fun F h => ?_⟩⟩
  have hexec := exec_value_of_checkBoth (respond_fsub s.lq (currentDraw s)) h
  obtain ⟨rfl, -, hF⟩ := h
  exact ⟨_, hexec, sumRule_addValue hF _ _ _⟩

/-- Inverting the sign bit of a port word negates its value (R61, R132). -/
theorem unpack_xor_sign {F : Format} (hF : formatValid F = true) (b : PortWord) :
    unpack F (b ^^^ BitVec.twoPow portBits (F.m + F.e)) = negate (unpack F b) := by
  obtain ⟨-, -, -, -, hwidth⟩ := formatValid_bounds hF
  have hfits : F.m + F.e < portBits := by have := portWidth_le; omega
  have hbit : ∀ j, (b ^^^ BitVec.twoPow portBits (F.m + F.e)).getLsbD j =
      (b.getLsbD j ^^ decide (j = F.m + F.e)) := by
    intro j
    rw [BitVec.getLsbD_xor, BitVec.getLsbD_twoPow, decide_eq_true hfits, Bool.true_and]
    simp only [eq_comm]
  have hx : (b ^^^ BitVec.twoPow portBits (F.m + F.e)).extractLsb' F.m F.e = b.extractLsb' F.m F.e := by
    apply BitVec.eq_of_getLsbD_eq
    intro j hj
    simp [hbit, hj.ne]
  have hf : (b ^^^ BitVec.twoPow portBits (F.m + F.e)).extractLsb' 0 F.m = b.extractLsb' 0 F.m := by
    apply BitVec.eq_of_getLsbD_eq
    intro j hj
    simp [hbit, (show j ≠ F.m + F.e by omega)]
  rw [unpack, hx, hf, hbit]
  simp [unpack, negate]

/-- An operand with the sign bit of its port word inverted (R132). -/
def flipSign (p : Operand) : Operand :=
  { p with bits := p.bits ^^^ BitVec.twoPow portBits (p.m.toNat + p.e.toNat) }

/-- Its value is the operand's, negated. -/
theorem valueOf_flipSign {p : Operand} (hp : formatValid (tagOf p) = true) :
    valueOf (flipSign p) = negate (valueOf p) := unpack_xor_sign hp p.bits

/-- On operands of one valid format FSUB's response is FADD's for B with its sign bit inverted, of the same draw
(R132). -/
theorem respond_fsub_eq_fadd {F : Format} {q : Request} (h : sameFormat F q) (d : NanDraw) :
    respond .fsub q d = respond .fadd { q with b := flipSign q.b } d := by
  have hflip : sameFormat F { q with b := flipSign q.b } := h
  have ⟨_, hb, hF⟩ := h
  rw [respond_fsub, respond_fadd, checkBoth_of_sameFormat h, checkBoth_of_sameFormat hflip,
    valueOf_flipSign (hb ▸ hF)]

/-- Settles O33: the responses agree (`respond_fsub_eq_fadd`), and so do the draws of the two states (R132, R133). -/
theorem fsubIsFaddWithBSignBitInverted : Obligations.FsubIsFaddWithBSignBitInverted := by
  unfold Obligations.FsubIsFaddWithBSignBitInverted
  intro s t u hformat ht hu
  rw [exec_eq] at ht hu
  cases ht
  cases hu
  exact respond_fsub_eq_fadd hformat (currentDraw s)

end Sys2Proof.Machine
end

section
/-! FADD of a power of two and a far operand of the other sign, and the settlement of the statement about it (R134). -/

namespace Sys2Proof.Machine

/-- An integer less than half a unit away is the rounded one (R121). -/
theorem roundEven_eq_of_near {t : ℚ} {n : Int} (h : |t - n| < 1 / 2) : roundEven t = n := by
  by_contra hne
  exact absurd h (half_le_abs_sub (Ne.symm hne)).not_gt

/-- The retained bits of a magnitude in the binade of `K` that lies less than half a weight from a multiple of the last
bit's weight (R121). -/
theorem retainedBits_eq_of_near {m : Nat} {q : ℚ} {K n : Int} (hK : ilog2 q = K)
    (h : |q - n * (2 : ℚ) ^ (K - m)| < 1 / 2 * (2 : ℚ) ^ (K - m)) : retainedBits m q = n := by
  subst hK
  rw [abs_sub_mul_weight, mul_lt_mul_iff_of_pos_right (two_zpow_pos _)] at h
  exact roundEven_eq_of_near h

/-- A little less than a power of two, by more than half a weight of the binade below and less than one, rounds to the
predecessor of the power (R134). -/
theorem roundedMag_pow_sub (m : Nat) {K : Int} {r : ℚ} (hlow : (2 : ℚ) ^ (K - m - 1) < r)
    (hhigh : r < (2 : ℚ) ^ (K - m)) :
    roundedMag m ((2 : ℚ) ^ (K + 1) - r) = ((2 ^ (m + 1) - 1 : Int) : ℚ) * (2 : ℚ) ^ (K - m) := by
  have hweight : (2 : ℚ) ^ (K - m) ≤ (2 : ℚ) ^ K := two_zpow_le (by omega)
  have hhalf : (2 : ℚ) ^ (K - m - 1) = 1 / 2 * (2 : ℚ) ^ (K - m) := by
    rw [zpow_sub_one₀ (by norm_num)]
    ring
  have hdouble : (2 : ℚ) ^ (K + 1) = 2 * (2 : ℚ) ^ K := by
    rw [zpow_add_one₀ (by norm_num)]
    ring
  have hpow : (2 : ℚ) ^ (m + 1) * (2 : ℚ) ^ (K - m) = (2 : ℚ) ^ (K + 1) := by
    rw [two_pow_mul_zpow]
    congr 1
    push_cast
    omega
  have hpos := two_zpow_pos (K - m - 1)
  have hK : ilog2 ((2 : ℚ) ^ (K + 1) - r) = K := ilog2_eq (by linarith) (by linarith)
  have hretained : retainedBits m ((2 : ℚ) ^ (K + 1) - r) = 2 ^ (m + 1) - 1 := by
    apply retainedBits_eq_of_near hK
    push_cast
    rw [sub_mul, hpow, abs_lt]
    constructor <;> linarith
  rw [roundedMag_eq, hretained, hK]

/-- A rounded magnitude that is a NORMAL value's own is packed to the value (R121). -/
theorem roundPack_eq_of_roundedMag {F : Format} {w : Value} {q : ℚ} (he : 2 ≤ F.e) (hw : w.inFormat F = true)
    (hc : classOf F w = .normal) (hq : 0 < q) (h : roundedMag F.m q = mag F w) : roundPack F w.s q = w := by
  obtain ⟨hlow, hhigh⟩ := mag_range he hw hc
  rw [← h] at hlow hhigh
  rcases roundPack_cases he w.s hq with ⟨hover, -⟩ | ⟨hunder, -⟩ | ⟨-, -, hs, hin, -, hmag⟩
  · exact absurd hhigh hover.not_gt
  · exact absurd hunder hlow.not_gt
  · exact eq_of_mag_eq hin hw hs (hmag.trans h)

/-- The magnitude of a power of two (R103). -/
theorem mag_of_f_zero {F : Format} {v : Value} (hf : v.f = 0) : mag F v = (2 : ℚ) ^ ((v.x : Int) - bias F.e) := by
  rw [mag, significand, hf, Nat.add_zero, Nat.cast_pow, Nat.cast_ofNat, two_pow_mul_zpow]
  congr 1
  omega

/-- A value that is no power of two lies inside its binade (R103). -/
theorem mag_inside_binade {F : Format} {v : Value} (hlt : v.f < 2 ^ F.m) (hf : v.f ≠ 0) :
    (2 : ℚ) ^ ((v.x : Int) - bias F.e) < mag F v ∧ mag F v < (2 : ℚ) ^ ((v.x : Int) - bias F.e + 1) := by
  obtain ⟨-, hhigh⟩ := ilog2_spec (mag_pos F v)
  rw [ilog2_mag hlt] at hhigh
  refine ⟨?_, hhigh⟩
  have hpow : mag F ⟨v.s, v.x, 0⟩ = (2 : ℚ) ^ ((v.x : Int) - bias F.e) := mag_of_f_zero rfl
  rw [← hpow, mag, mag, mul_lt_mul_iff_of_pos_right (two_zpow_pos _), Nat.cast_lt, significand, significand]
  dsimp only
  omega

theorem addend_of_normal {F : Format} {v : Value} (hc : classOf F v = .normal) :
    addend F v = signed v.s (mag F v) := by
  simp [addend, hc]

/-- A sum that is not zero is rounded with its sign (R131). -/
theorem roundSum_signed (F : Format) (s : Bool) {q : ℚ} (hq : 0 < q) : roundSum F (signed s q) = roundPack F s q := by
  cases s with
  | false => exact roundSum_of_pos F hq
  | true => rw [signed, if_pos rfl, roundSum_of_neg F (neg_neg_of_pos hq), neg_neg]

/-- NORMAL values of opposite sign, the first the larger, add to the rounded difference of their magnitudes (R131). -/
theorem addValue_of_opposite_signs {F : Format} {a b : Value} (d : Value) (ha : classOf F a = .normal)
    (hb : classOf F b = .normal) (hs : a.s ≠ b.s) (hlt : mag F b < mag F a) :
    addValue F d a b = roundPack F a.s (mag F a - mag F b) := by
  have hsum : addend F a + addend F b = signed a.s (mag F a - mag F b) := by
    rw [addend_of_normal ha, addend_of_normal hb, Bool.eq_not_of_ne hs.symm]
    cases a.s <;> simp [signed] <;> ring
  rw [addValue_finite_finite d (.inr ha) (.inr hb) (fun hz => by simp [ha] at hz), hsum,
    roundSum_signed F a.s (sub_pos.mpr hlt)]

/-- The predecessor of a power of two is NORMAL where an exponent field below the power's is (R102, R134). -/
theorem predecessor_normal {F : Format} {a : Value} (he : 2 ≤ F.e) (ha : a.inFormat F = true)
    (hc : classOf F a = .normal) (hx : 2 ≤ a.x) :
    Value.inFormat F ⟨a.s, a.x - 1, 2 ^ F.m - 1⟩ = true ∧ classOf F ⟨a.s, a.x - 1, 2 ^ F.m - 1⟩ = .normal := by
  obtain ⟨-, hmax, -⟩ := normal_bounds he ha hc
  obtain ⟨hxlt, -⟩ := inFormat_iff.mp ha
  have hones := onesExp_eq_bias he
  have hpos : 0 < 2 ^ F.m := by positivity
  rw [inFormat_iff, classOf_normal_iff]
  dsimp only
  omega

/-- Its magnitude: `2^(m+1) - 1` at the weight of the last bit of the binade below (R103). -/
theorem mag_predecessor {F : Format} {a : Value} (hx : 1 ≤ a.x) :
    mag F ⟨a.s, a.x - 1, 2 ^ F.m - 1⟩ =
      ((2 ^ (F.m + 1) - 1 : Int) : ℚ) * (2 : ℚ) ^ ((a.x : Int) - bias F.e - 1 - F.m) := by
  have hpos : 1 ≤ 2 ^ F.m := Nat.one_le_two_pow
  rw [mag, significand]
  dsimp only
  push_cast [hx, hpos]
  rw [pow_succ]
  congr 1
  · ring
  · congr 1
    ring

/-- Settles O35: B's magnitude lies between half a weight and one weight of the last bit in the binade below A's, so the
difference rounds to A's predecessor (`roundedMag_pow_sub`, R134). -/
theorem farOperandRoundsToThePredecessor : Obligations.FarOperandRoundsToThePredecessor := by
  unfold Obligations.FarOperandRoundsToThePredecessor
  intro F d a b hF ha hb hca hcb hs haf hbf hx
  obtain ⟨-, he, -⟩ := formatValid_bounds hF
  obtain ⟨-, hblt⟩ := inFormat_iff.mp hb
  obtain ⟨hlow, hhigh⟩ := mag_inside_binade hblt hbf
  have hmag : mag F a = (2 : ℚ) ^ ((a.x : Int) - bias F.e) := mag_of_f_zero haf
  have hlt : mag F b < mag F a := by
    rw [hmag]
    exact hhigh.trans_le (two_zpow_le (by omega))
  obtain ⟨hw, hcw⟩ := predecessor_normal he ha hca (by omega)
  rw [addValue_of_opposite_signs d hca hcb hs hlt]
  apply roundPack_eq_of_roundedMag he hw hcw (sub_pos.mpr hlt)
  rw [mag_predecessor (by omega), hmag]
  have hround := roundedMag_pow_sub F.m (K := (a.x : Int) - bias F.e - 1) (r := mag F b)
    ((two_zpow_le (by omega)).trans_lt hlow) (hhigh.trans_le (two_zpow_le (by omega)))
  rwa [sub_add_cancel] at hround

end Sys2Proof.Machine
end

section
/-! Two laws of the product and the quotient, and the settlement of the statements about them (R141, R142). -/

namespace Sys2Proof.Machine

/-- The product rule is symmetric (R141). -/
theorem mulValue_comm (F : Format) (a b : Value) : mulValue F a b = mulValue F b a := by
  have hinvalid : (classOf F a = .zero ∧ classOf F b = .inf) ∨ (classOf F a = .inf ∧ classOf F b = .zero) ↔
      (classOf F b = .zero ∧ classOf F a = .inf) ∨ (classOf F b = .inf ∧ classOf F a = .zero) := by
    rw [or_comm, and_comm, and_comm (a := classOf F a = .zero)]
  have hor (c : Class) : classOf F a = c ∨ classOf F b = c ↔ classOf F b = c ∨ classOf F a = c := or_comm
  simp only [mulValue, hinvalid, hor, Bool.xor_comm a.s, mul_comm (mag F a)]

/-- Settles O38: neither the checks (`checkBoth_swap`) nor, within one format, the product (`mulValue_comm`) tells A
from B (R141). -/
theorem fmulCommutes : Obligations.FmulCommutes := by
  unfold Obligations.FmulCommutes
  intro q d d'
  rw [respond_fmul, respond_fmul, checkBoth_swap]
  cases hcheck : checkBoth q with
  | some c => rfl
  | none =>
    obtain ⟨-, -, htag⟩ := checkBoth_eq_none.mp hcheck
    simp only [answer_none, ← htag]
    rw [mulValue_comm]

/-- The NORMAL value 1.0 (R101, R103). -/
theorem one_normal {F : Format} (he : 2 ≤ F.e) :
    Value.inFormat F ⟨false, bias F.e, 0⟩ = true ∧ classOf F ⟨false, bias F.e, 0⟩ = .normal ∧
      mag F ⟨false, bias F.e, 0⟩ = 1 := by
  have hones := onesExp_eq_bias he
  obtain ⟨hpow, hbias⟩ := two_pow_eq_bias he
  refine ⟨?_, ?_, ?_⟩
  · rw [inFormat_iff]
    exact ⟨by dsimp only; omega, by positivity⟩
  · rw [classOf_normal_iff]
    dsimp only
    omega
  · rw [mag_of_f_zero rfl, sub_self, zpow_zero]

/-- Settles O39: the quotient of the magnitudes is 1, which is 1.0's own (`roundPack_mag`, R142). -/
theorem fdivOfAValueByItselfIsOne : Obligations.FdivOfAValueByItselfIsOne := by
  unfold Obligations.FdivOfAValueByItselfIsOne
  intro F v hF hv hc
  obtain ⟨-, he, -⟩ := formatValid_bounds hF
  obtain ⟨hin, hn, hone⟩ := one_normal he
  rw [divValue_normal_normal hc hc, Bool.xor_self, div_self (mag_pos F v).ne', ← hone]
  exact roundPack_mag he hin hn

end Sys2Proof.Machine
end

section
/-! The comparator's order on canonical values is the order of their fields, and the settlement of the statement about
it (R151, R152). -/

namespace Sys2Proof.Machine

/-- Exponent and mantissa field side by side, as one unsigned number (R151). -/
def fieldNat (F : Format) (v : Value) : Nat := v.x * 2 ^ F.m + v.f

@[simp] theorem fieldNat_negate (F : Format) (v : Value) : fieldNat F (negate v) = fieldNat F v := rfl

/-- The numbers compare as the exponent fields do, and as the mantissa fields where those are equal. -/
theorem lex_of_fieldNat_lt {F : Format} {a b : Value} (hb : b.f < 2 ^ F.m) (h : fieldNat F a < fieldNat F b) :
    a.x < b.x ∨ a.x = b.x ∧ a.f < b.f := by
  unfold fieldNat at h
  rcases lt_trichotomy a.x b.x with hx | hx | hx
  · exact .inl hx
  · rw [hx] at h
    exact .inr ⟨hx, Nat.lt_of_add_lt_add_left h⟩
  · have hstep : (b.x + 1) * 2 ^ F.m ≤ a.x * 2 ^ F.m := Nat.mul_le_mul_right _ hx
    rw [Nat.succ_mul] at hstep
    omega

/-- Values of one sign with the same number are the same value. -/
theorem eq_of_fieldNat_eq {F : Format} {a b : Value} (ha : a.inFormat F = true) (hb : b.inFormat F = true)
    (hs : a.s = b.s) (h : fieldNat F a = fieldNat F b) : a = b := by
  apply eq_of_packNat_eq ha hb
  unfold fieldNat at h
  rw [packNat, packNat, hs, add_assoc, add_assoc, h]

/-- Magnitudes compare as the fields do (R103). -/
theorem mag_lt_of_fieldNat_lt {F : Format} {a b : Value} (ha : a.f < 2 ^ F.m) (hb : b.f < 2 ^ F.m)
    (h : fieldNat F a < fieldNat F b) : mag F a < mag F b := by
  rcases lex_of_fieldNat_lt hb h with hx | ⟨hx, hf⟩
  · obtain ⟨-, hhigh⟩ := ilog2_spec (mag_pos F a)
    obtain ⟨hlow, -⟩ := ilog2_spec (mag_pos F b)
    rw [ilog2_mag ha] at hhigh
    rw [ilog2_mag hb] at hlow
    exact (hhigh.trans_le (two_zpow_le (by omega))).trans_le hlow
  · rw [mag, mag, hx, mul_lt_mul_iff_of_pos_right (two_zpow_pos _), Nat.cast_lt, significand, significand]
    omega

/-- A value that the comparator orders by its fields: canonical and no NaN. -/
def CanonicalNumber (F : Format) (v : Value) : Prop := Canonical F v ∧ classOf F v ≠ .nan

theorem CanonicalNumber.inFormat {F : Format} {v : Value} (h : CanonicalNumber F v) : v.inFormat F = true := h.1.1

theorem CanonicalNumber.negate {F : Format} {v : Value} (h : CanonicalNumber F v) :
    CanonicalNumber F (negate v) := h

section
variable {F : Format} {a b : Value}

/-- Of the values that are no NaN exactly the zero patterns are worth 0 (R151). -/
theorem ext_eq_zero_iff (ha : classOf F a ≠ .nan) : ext F a = .fin 0 ↔ a.x = 0 := by
  rw [← classOf_zero_iff (F := F)]
  cases hc : classOf F a with
  | zero => exact iff_of_true (ext_of_zero hc) rfl
  | normal =>
    refine iff_of_false (fun h => ?_) (by decide)
    rw [ext_of_normal hc, ExtRat.fin.injEq] at h
    have hpos := mag_pos F a
    cases hs : a.s <;> simp [signed, hs] at h <;> linarith
  | inf =>
    refine iff_of_false ?_ (by decide)
    rw [ext_of_inf hc]
    split <;> simp
  | nan => exact absurd hc ha

/-- A value of sign 0 is at least 0 (R151). -/
theorem zero_le_order_ext (hs : a.s = false) : Statements.order (.fin 0) ≤ Statements.order (ext F a) := by
  cases hc : classOf F a with
  | zero => rw [ext_of_zero hc]
  | normal =>
    rw [ext_of_normal hc, hs, order_fin_le_iff]
    exact (mag_pos F a).le
  | inf =>
    rw [ext_of_inf hc, hs]
    exact order_le_posInf _
  | nan => simp [ext, hc]

/-- A value of sign 1 is at most 0 (R151). -/
theorem order_ext_le_zero (hs : a.s = true) : Statements.order (ext F a) ≤ Statements.order (.fin 0) := by
  have hneg : extNeg (.fin 0) = .fin 0 := by rw [extNeg, neg_zero]
  rw [← order_extNeg_le_iff, ← ext_negate, hneg]
  exact zero_le_order_ext (by simp [negate, hs])

/-- On values of sign 0 the comparator's order is that of the fields, from smaller to larger. -/
theorem order_ext_lt_of_fieldNat_lt (he : 2 ≤ F.e) (ha : CanonicalNumber F a) (hb : CanonicalNumber F b)
    (hsa : a.s = false) (hsb : b.s = false) (h : fieldNat F a < fieldNat F b) :
    Statements.order (ext F a) < Statements.order (ext F b) := by
  obtain ⟨⟨hina, -⟩, hna⟩ := ha
  obtain ⟨⟨hinb, hzb⟩, hnb⟩ := hb
  obtain ⟨-, haf⟩ := inFormat_iff.mp hina
  obtain ⟨hbx, hbf⟩ := inFormat_iff.mp hinb
  have hlex := lex_of_fieldNat_lt hbf h
  have hones := onesExp_eq_bias he
  have hpow := two_pow_eq_bias he
  have hainf : classOf F a ≠ .inf := by
    intro hc
    obtain ⟨hx0, hx, hf⟩ := classOf_inf_iff.mp hc
    exact hnb (classOf_nan_iff.mpr (by omega))
  cases hcb : classOf F b with
  | zero =>
    have hx := classOf_zero_iff.mp hcb
    have hf := hzb hx
    omega
  | normal =>
    cases hca : classOf F a with
    | zero =>
      rw [ext_of_zero hca, ext_of_normal hcb, hsb, order_fin_lt_iff]
      exact mag_pos F b
    | normal =>
      rw [ext_of_normal hca, ext_of_normal hcb, hsa, hsb, order_fin_lt_iff]
      exact mag_lt_of_fieldNat_lt haf hbf h
    | inf => exact absurd hca hainf
    | nan => exact absurd hca hna
  | inf =>
    rw [ext_of_inf hcb, hsb]
    cases hca : classOf F a with
    | zero => rw [ext_of_zero hca]; exact order_fin_lt_posInf _
    | normal => rw [ext_of_normal hca]; exact order_fin_lt_posInf _
    | inf => exact absurd hca hainf
    | nan => exact absurd hca hna
  | nan => exact absurd hcb hnb

/-- So it is that of the fields both ways (R151). -/
theorem order_ext_lt_iff_of_pos (he : 2 ≤ F.e) (ha : CanonicalNumber F a) (hb : CanonicalNumber F b)
    (hsa : a.s = false) (hsb : b.s = false) :
    Statements.order (ext F a) < Statements.order (ext F b) ↔ fieldNat F a < fieldNat F b := by
  refine ⟨fun h => ?_, order_ext_lt_of_fieldNat_lt he ha hb hsa hsb⟩
  rcases lt_trichotomy (fieldNat F a) (fieldNat F b) with hlt | heq | hgt
  · exact hlt
  · rw [eq_of_fieldNat_eq ha.inFormat hb.inFormat (hsa.trans hsb.symm) heq] at h
    exact absurd h (lt_irrefl _)
  · exact absurd h (order_ext_lt_of_fieldNat_lt he hb ha hsb hsa hgt).asymm

/-- On values of sign 1 the order of the fields is inverted (R151). -/
theorem order_ext_lt_iff_of_neg (he : 2 ≤ F.e) (ha : CanonicalNumber F a) (hb : CanonicalNumber F b)
    (hsa : a.s = true) (hsb : b.s = true) :
    Statements.order (ext F a) < Statements.order (ext F b) ↔ fieldNat F b < fieldNat F a := by
  rw [← order_extNeg_lt_iff, ← ext_negate, ← ext_negate,
    order_ext_lt_iff_of_pos he hb.negate ha.negate (by simp [negate, hsb]) (by simp [negate, hsa]),
    fieldNat_negate, fieldNat_negate]

/-- Values of one sign with the same extended value are the same value (R152). -/
theorem order_ext_eq_iff_of_same_sign (he : 2 ≤ F.e) (ha : CanonicalNumber F a) (hb : CanonicalNumber F b)
    (hs : a.s = b.s) : Statements.order (ext F a) = Statements.order (ext F b) ↔ a = b := by
  refine ⟨fun h => eq_of_fieldNat_eq ha.inFormat hb.inFormat hs ?_, fun h => h ▸ rfl⟩
  cases hsb : b.s with
  | false =>
    have hsa := hs.trans hsb
    exact Nat.le_antisymm
      (not_lt.mp fun hlt => ((order_ext_lt_iff_of_pos he hb ha hsb hsa).mpr hlt).ne h.symm)
      (not_lt.mp fun hlt => ((order_ext_lt_iff_of_pos he ha hb hsa hsb).mpr hlt).ne h)
  | true =>
    have hsa := hs.trans hsb
    exact Nat.le_antisymm
      (not_lt.mp fun hlt => ((order_ext_lt_iff_of_neg he ha hb hsa hsb).mpr hlt).ne h)
      (not_lt.mp fun hlt => ((order_ext_lt_iff_of_neg he hb ha hsb hsa).mpr hlt).ne h.symm)

/-- A value of sign 1 is at most one of sign 0. -/
theorem order_ext_le_of_neg_pos (hsa : a.s = true) (hsb : b.s = false) :
    Statements.order (ext F a) ≤ Statements.order (ext F b) :=
  (order_ext_le_zero hsa).trans (zero_le_order_ext hsb)

/-- They are equal exactly where both are zeros (R151, R152). -/
theorem order_ext_eq_iff_of_neg_pos (hna : classOf F a ≠ .nan) (hnb : classOf F b ≠ .nan) (hsa : a.s = true)
    (hsb : b.s = false) : Statements.order (ext F a) = Statements.order (ext F b) ↔ a.x = 0 ∧ b.x = 0 := by
  rw [← ext_eq_zero_iff hna, ← ext_eq_zero_iff hnb]
  constructor
  · intro h
    have ha := (order_ext_le_zero hsa).antisymm (h ▸ zero_le_order_ext (F := F) hsb)
    exact ⟨order_injective ha, order_injective (h.symm.trans ha)⟩
  · rintro ⟨ha, hb⟩
    rw [ha, hb]

/-- FEQ of canonical numbers is equality of the fields, but for the two zeros (R152). -/
theorem order_ext_eq_iff (he : 2 ≤ F.e) (ha : CanonicalNumber F a) (hb : CanonicalNumber F b) :
    Statements.order (ext F a) = Statements.order (ext F b) ↔ a = b ∨ (a.x = 0 ∧ b.x = 0) := by
  have ⟨⟨_, hza⟩, hna⟩ := ha
  have ⟨⟨_, hzb⟩, hnb⟩ := hb
  by_cases hs : a.s = b.s
  · have hzeros : a.x = 0 ∧ b.x = 0 → a = b := by
      rintro ⟨hxa, hxb⟩
      apply eq_of_fieldNat_eq ha.inFormat hb.inFormat hs
      rw [fieldNat, fieldNat, hxa, hxb, hza hxa, hzb hxb]
    rw [order_ext_eq_iff_of_same_sign he ha hb hs, or_iff_left_of_imp hzeros]
  · have hne : a ≠ b := fun h => hs (h ▸ rfl)
    rw [or_iff_right hne]
    cases hsa : a.s with
    | true =>
      have hsb : b.s = false := by simpa [hsa] using hs
      exact order_ext_eq_iff_of_neg_pos hna hnb hsa hsb
    | false =>
      have hsb : b.s = true := by simpa [hsa] using hs
      rw [eq_comm, and_comm]
      exact order_ext_eq_iff_of_neg_pos hnb hna hsb hsa

/-- FLT of two values that are no NaN is the order of their extended values (R154). -/
theorem fltHolds_iff_of_ne_nan (hna : classOf F a ≠ .nan) (hnb : classOf F b ≠ .nan) :
    fltHolds F a b = true ↔ Statements.order (ext F a) < Statements.order (ext F b) := by
  simp [fltHolds_iff, hna, hnb]

/-- FEQ likewise (R152). -/
theorem feqHolds_iff_of_ne_nan (hna : classOf F a ≠ .nan) (hnb : classOf F b ≠ .nan) :
    feqHolds F a b = true ↔ Statements.order (ext F a) = Statements.order (ext F b) := by
  simp [feqHolds_iff, hna, hnb]

end

/-- Settles O43: equality by `order_ext_eq_iff`; the order of two values of one sign is that of the fields or its
inverse, and a value of sign 1 is never above one of sign 0 (R151, R152). -/
theorem compareOrderIsTheFieldOrder : Obligations.CompareOrderIsTheFieldOrder := by
  unfold Obligations.CompareOrderIsTheFieldOrder
  intro F a b hF hina hinb hna hnb hza hzb
  obtain ⟨-, he, -⟩ := formatValid_bounds hF
  have ha : CanonicalNumber F a := ⟨⟨hina, hza⟩, hna⟩
  have hb : CanonicalNumber F b := ⟨⟨hinb, hzb⟩, hnb⟩
  rw [feqHolds_iff_of_ne_nan hna hnb, fltHolds_iff_of_ne_nan hna hnb]
  refine ⟨order_ext_eq_iff he ha hb, order_ext_lt_iff_of_pos he ha hb, order_ext_lt_iff_of_neg he ha hb,
    fun hsa hsb => ?_, fun hsa hsb => ?_⟩
  · rw [← order_ext_eq_iff_of_neg_pos hna hnb hsa hsb]
    exact (order_ext_le_of_neg_pos hsa hsb).lt_iff_ne
  · rw [Bool.eq_false_iff, ne_eq, fltHolds_iff_of_ne_nan hna hnb, not_lt]
    exact order_ext_le_of_neg_pos hsb hsa

end Sys2Proof.Machine
end

section
/-! Widening, and the settlement of the statement about it (R163). -/

namespace Sys2Proof.Machine

/-- The value of the wider format `T` with the fields that R163 gives: the exponent re-biased and the mantissa padded
with zeros. -/
def widened (F T : Format) (v : Value) : Value := ⟨v.s, v.x + bias T.e - bias F.e, v.f * 2 ^ (T.m - F.m)⟩

section
variable {F T : Format} {v : Value}

/-- The re-biased exponent field, without the truncation of a subtraction of natural numbers. -/
theorem widened_x (he : F.e ≤ T.e) : ((widened F T v).x : Int) = (v.x : Int) - bias F.e + bias T.e := by
  have := bias_mono he
  dsimp only [widened]
  omega

/-- The widened value is a NORMAL value of the wider format (R163). -/
theorem widened_normal (heF : 2 ≤ F.e) (hm : F.m ≤ T.m) (he : F.e ≤ T.e) (hv : v.inFormat F = true)
    (hc : classOf F v = .normal) : (widened F T v).inFormat T = true ∧ classOf T (widened F T v) = .normal := by
  obtain ⟨hlow, hhigh, hf⟩ := normal_bounds heF hv hc
  have hx := widened_x (v := v) he
  have hbias := bias_mono he
  have hones := onesExp_eq_bias (heF.trans he)
  have hpow := two_pow_eq_bias (heF.trans he)
  have hmant : (widened F T v).f < 2 ^ T.m := by
    calc v.f * 2 ^ (T.m - F.m) < 2 ^ F.m * 2 ^ (T.m - F.m) := by gcongr
      _ = 2 ^ T.m := by rw [← pow_add, Nat.add_sub_cancel' hm]
  rw [inFormat_iff, classOf_normal_iff]
  omega

/-- It has the value's own magnitude (R103, R163). -/
theorem mag_widened (hm : F.m ≤ T.m) (he : F.e ≤ T.e) : mag T (widened F T v) = mag F v := by
  have hsignificand : significand T (widened F T v) = significand F v * 2 ^ (T.m - F.m) := by
    rw [significand, significand, add_mul, ← pow_add, Nat.add_sub_cancel' hm]
    rfl
  rw [mag, mag, hsignificand, widened_x he]
  push_cast
  rw [mul_assoc, two_pow_mul_zpow]
  congr 2
  omega

/-- The cast of a NORMAL value is its rounded magnitude, the identity cast included (R161). -/
theorem castValue_eq_roundPack (heF : 2 ≤ F.e) (hv : v.inFormat F = true) (hc : classOf F v = .normal) :
    castValue F T v = roundPack T v.s (mag F v) := by
  by_cases h : T = F
  · rw [h, castValue_self, roundPack_mag heF hv hc]
  · exact castValue_of_normal h hc

/-- Widening answers the widened value: the two have one magnitude (R163). -/
theorem castValue_eq_widened (heF : 2 ≤ F.e) (hm : F.m ≤ T.m) (he : F.e ≤ T.e) (hv : v.inFormat F = true)
    (hc : classOf F v = .normal) : castValue F T v = widened F T v := by
  obtain ⟨hin, hn⟩ := widened_normal heF hm he hv hc
  rw [castValue_eq_roundPack heF hv hc, ← mag_widened hm he]
  exact roundPack_mag (heF.trans he) hin hn

end

/-- Settles O46: the cast is `widened`, whose fields are those of the statement (R163). -/
theorem wideningCastIsExact : Obligations.WideningCastIsExact := by
  unfold Obligations.WideningCastIsExact
  intro F T v hF _ hm he hv hc
  obtain ⟨-, heF, -⟩ := formatValid_bounds hF
  rw [castValue_eq_widened heF hm he hv hc]
  exact ⟨rfl, widened_x he, rfl, (widened_normal heF hm he hv hc).2⟩

end Sys2Proof.Machine
end

section
/-! FCVT.X.F64, class by class of the binary64 word, and the settlement of the statement about what it delivers
(R110, R111). -/

namespace Sys2Proof.Machine

section
variable {T : Format} {w : BitVec 64}

/-! `fromF64Value`: one equation per case of R111, a subnormal word apart from a normal one. -/

theorem fromF64Value_of_nan (hx : (f64Fields w).x = 2047) (hf : (f64Fields w).f ≠ 0) :
    fromF64Value T w = qNaN T (f64Fields w).s := by
  simp [fromF64Value, f64ClassOf, hx, hf]

theorem fromF64Value_of_inf (hx : (f64Fields w).x = 2047) (hf : (f64Fields w).f = 0) :
    fromF64Value T w = infV T (f64Fields w).s := by
  simp [fromF64Value, f64ClassOf, hx, hf]

theorem fromF64Value_of_zero (hx : (f64Fields w).x = 0) (hf : (f64Fields w).f = 0) :
    fromF64Value T w = zeroV T (f64Fields w).s := by
  simp [fromF64Value, f64ClassOf, hx, hf]

theorem fromF64Value_of_subnormal (hx : (f64Fields w).x = 0) (hf : (f64Fields w).f ≠ 0) :
    fromF64Value T w = roundPack T (f64Fields w).s ((f64Fields w).f * (2 : ℚ) ^ (-1074 : Int)) := by
  simp [fromF64Value, f64ClassOf, f64Mag, hx, hf]

theorem fromF64Value_of_normal (hx : (f64Fields w).x ≠ 0) (hx' : (f64Fields w).x ≠ 2047) :
    fromF64Value T w = roundPack T (f64Fields w).s
      ((2 ^ 52 + (f64Fields w).f) * (2 : ℚ) ^ (((f64Fields w).x : Int) - 1075)) := by
  have hfinite : f64ClassOf w = .finite := by simp [f64ClassOf, hx, hx']
  simp only [fromF64Value, hfinite, f64Mag, if_neg hx]
  push_cast
  rfl

end

/-- Settles O49: FCVT.X.F64 answers `fromF64Value` behind the check of the target, and its value is told by the word's
class (R110, R111, R175). -/
theorem fcvtXF64DeliversTheConvertedWord : Obligations.FcvtXF64DeliversTheConvertedWord := by
  unfold Obligations.FcvtXF64DeliversTheConvertedWord
  refine ⟨fun _ _ => rfl, fun s T => ⟨exec_of_checkFormat_invalid rfl, ?_⟩⟩
  rintro x f n hT rfl rfl rfl
  exact ⟨fromF64Value T s.lq.f64, exec_of_checkFormat rfl hT, fromF64Value_of_nan, fromF64Value_of_inf,
    fromF64Value_of_zero, fromF64Value_of_subnormal, fromF64Value_of_normal⟩

end Sys2Proof.Machine
end

section
/-! A binary64 word as a value of (52, 11) and back, and the settlement of the statement about the round trip (R42,
R111, R162). -/

namespace Sys2Proof.Machine

/-- The fields of a binary64 word are those of the value of (52, 11) on a port that holds it (R42, R61). -/
theorem f64Fields_eq_unpack (w : BitVec 64) : f64Fields w = unpack ⟨52, 11⟩ (w.setWidth portBits) := by
  have hport : (w.setWidth portBits).toNat = w.toNat := BitVec.toNat_setWidth_of_le (by decide)
  simp only [f64Fields, unpack, BitVec.extractLsb'_toNat, BitVec.getLsbD, hport]

/-- They fit the format. -/
theorem inFormat_f64Fields (w : BitVec 64) : (f64Fields w).inFormat ⟨52, 11⟩ = true :=
  f64Fields_eq_unpack w ▸ inFormat_unpack _ _

/-- Put side by side they are the word (R42). -/
theorem packNat_f64Fields (w : BitVec 64) : packNat ⟨52, 11⟩ (f64Fields w) = w.toNat := by
  rw [f64Fields_eq_unpack, packNat_unpack, BitVec.toNat_setWidth_of_le (by decide)]
  exact Nat.mod_eq_of_lt w.isLt

/-- So a word that is read as a value and written again is the word. -/
theorem packWord64_f64Fields (w : BitVec 64) : packWord64 (f64Fields w) = w := by
  apply BitVec.eq_of_toNat_eq
  exact (packWord64_toNat (inFormat_f64Fields w)).trans (packNat_f64Fields w)

/-- A word that is neither a NaN nor a subnormal converts to the value of its own fields (R111): each class by its own
case, a normal word because its magnitude is the value's. -/
theorem fromF64Value_f64Format {w : BitVec 64} (hnan : ¬((f64Fields w).x = 2047 ∧ (f64Fields w).f ≠ 0))
    (hsubnormal : ¬((f64Fields w).x = 0 ∧ (f64Fields w).f ≠ 0)) : fromF64Value ⟨52, 11⟩ w = f64Fields w := by
  rcases eq_or_ne (f64Fields w).x 0 with hx | hx
  · have hf : (f64Fields w).f = 0 := by simpa [hx] using hsubnormal
    rw [fromF64Value_of_zero hx hf]
    exact zeroV_eq_of_canonical (classOf_zero_iff.mpr hx) hf
  rcases eq_or_ne (f64Fields w).x 2047 with hx' | hx'
  · have hf : (f64Fields w).f = 0 := by simpa [hx'] using hnan
    rw [fromF64Value_of_inf hx' hf]
    exact infV_eq_of_inf (classOf_inf_iff.mpr ⟨hx, hx', hf⟩)
  · have hn : classOf ⟨52, 11⟩ (f64Fields w) = .normal := classOf_normal_iff.mpr ⟨hx, hx'⟩
    have hmag : mag ⟨52, 11⟩ (f64Fields w) =
        (2 ^ 52 + (f64Fields w).f) * (2 : ℚ) ^ (((f64Fields w).x : Int) - 1075) := by
      have hbias : (bias 11 : Int) = 1023 := rfl
      rw [mag, significand, hbias]
      push_cast
      congr 2
      ring
    rw [fromF64Value_of_normal hx hx', ← hmag]
    exact roundPack_mag (by decide) (inFormat_f64Fields w) hn

/-- Settles O50: the conversion answers the word's own fields (`fromF64Value_f64Format`), the port keeps them
(`unpack_pack`), the cast is the identity, and both packings give the word back (R111, R162). -/
theorem binary64RoundTripIsExact : Obligations.Binary64RoundTripIsExact := by
  unfold Obligations.Binary64RoundTripIsExact
  intro w hnan hsubnormal
  have hin := inFormat_f64Fields w
  rw [fromF64Value_f64Format hnan hsubnormal, unpack_pack f64Format_valid hin, castValue_self]
  exact ⟨(pack_toNat f64Format_valid hin).trans (packNat_f64Fields w), packWord64_f64Fields w⟩

end Sys2Proof.Machine
end
